-- ==== Sys2Proof/Word.lean ====
section
/-! DEFINITION. The word types of the block: a 64-bit value pattern and a byte (00_scope.md R6, R8). -/

namespace Sys2Proof

/-- The raw 64-bit pattern of a float64: ValueBits (00_scope.md R6, R13). -/
abbrev Word := BitVec 64

/-- One byte of a buffer (20_memory.md R60). -/
abbrev Byte := BitVec 8

end Sys2Proof
end

