-- ==== Sys2Proof/Config.lean ====
section
/-! DEFINITION. The parameters the spec leaves open, with their defaults, and the free values. -/

namespace Sys2Proof

/-- `P_LEAD_CLAMP`: how the encoder maps the leading-zero count to the 5-bit field
(00_scope.md R7, 40_encoder.md R145, R162). -/
inductive LeadClamp where
  | min
  | mask5
deriving DecidableEq, Repr

/-- `P_PREFLUSH_TAIL`: whether ENC_BYTES shows the pending partial byte (00_scope.md R7,
40_encoder.md R155). -/
inductive PreflushTail where
  | padded
  | completeOnly
deriving DecidableEq, Repr

/-- `P_MALFORMED`: what DEC does with a NEW record whose leading + sigbits exceeds 64
(00_scope.md R7, 41_decoder.md R199, R200). -/
inductive MalformedPolicy where
  | error
  | goWrap
deriving DecidableEq, Repr

/-- The parameters of 00_scope.md R7. A capacity of `none` is unbounded. `inPlace` is the model's own
parameter: whether the realisation reads the host's input buffer in place (20_memory.md R75,
60_exceptions.md R235; log entry 8). -/
structure Config where
  sentinel : Word
  headerId : BitVec 4
  leadClamp : LeadClamp
  preflushTail : PreflushTail
  malformed : MalformedPolicy
  outCap : Option Nat
  inCap : Option Nat
  inPlace : Bool
deriving DecidableEq, Repr

/-- The defaults of 00_scope.md R7. -/
def Config.default : Config where
  sentinel := 0x7FF8000000000001#64
  headerId := 1#4
  leadClamp := .min
  preflushTail := .padded
  malformed := .error
  outCap := none
  inCap := none
  inPlace := false

/-- The free value number `n`, a 64-bit pattern that nothing constrains: what the spec treats as
"any value" (93_implementation_defined.md section 2; log entries 5, 6, 7). -/
opaque Config.freeWord : Nat → BitVec 64

end Sys2Proof
end

