-- ==== Sys2Proof/Syntax.lean ====
section
/-! DEFINITION. The syntax: every row of the opcode table a constructor, the wire records, and the
formats in which instructions reach the block. -/

namespace Sys2Proof

/-- A window `(leading, trailing)` (00_scope.md R13, 10_state.md R21, R24). The trailing count is 64 bits
wide as the decoder needs under `go_wrap`. -/
structure Window where
  lead : BitVec 5
  trail : Word
deriving DecidableEq, Repr

/-- A value record of the wire format, as DEC executes it (30_encoding.md R103 to R105). `m` holds the
significant bits, right-aligned in 64 bits. -/
inductive Record where
  /-- `'0'`: value unchanged (R103). -/
  | same
  /-- `'10' ++ m:n`, `n` from the window in force (R104). -/
  | reuse (m : Word)
  /-- `'11' ++ L:5 ++ s6:6 ++ m:S` (R105). -/
  | newWindow (lead : BitVec 5) (s6 : BitVec 6) (m : Word)
deriving DecidableEq, Repr

/-- The instructions: the thirteen rows of the opcode table, eight host commands and five wire
records. -/
inductive Instr where
  /-- ENC_WRITE (40_encoder.md R140). -/
  | encWrite (wdata : Word)
  /-- ENC_FLUSH (40_encoder.md R150). -/
  | encFlush
  /-- ENC_BYTES (40_encoder.md R155). -/
  | encBytes
  /-- ENC_RESET (40_encoder.md R158). -/
  | encReset
  /-- DEC_SETBYTES (41_decoder.md R180); `ilen` is the length of `ibuf`. -/
  | decSetbytes (ibuf : List Byte)
  /-- DEC_NEXT (41_decoder.md R190). -/
  | decNext
  /-- DEC_VALUE (41_decoder.md R201). -/
  | decValue
  /-- DEC_ERROR (41_decoder.md R202). -/
  | decError
  /-- HEADER, byte 0 of a buffer (30_encoding.md R101, 41_decoder.md R184). -/
  | header (b : Byte)
  /-- SEED, the first 64 stream bits (30_encoding.md R102, 41_decoder.md R182). -/
  | seed (v : Word)
  /-- SAME (30_encoding.md R103, 41_decoder.md R192). -/
  | same
  /-- REUSE (30_encoding.md R104, 41_decoder.md R194, R196). -/
  | reuse (m : Word)
  /-- NEW (30_encoding.md R105, 41_decoder.md R195, R196, R199, R200). -/
  | newWindow (lead : BitVec 5) (s6 : BitVec 6) (m : Word)
deriving DecidableEq, Repr

/-- A value record as an instruction. -/
def Record.toInstr : Record → Instr
  | .same => .same
  | .reuse m => .reuse m
  | .newWindow lead s6 m => .newWindow lead s6 m

/-- The two units (00_scope.md R1). -/
inductive UnitId where
  | enc
  | dec
deriving DecidableEq, Repr

/-- The signals the host drives on one command port for one command (30_encoding.md R114, R115). The
operand lines carry any value for a command that has no operand. -/
inductive PortWord where
  | enc (ecmd : BitVec 2) (wdata : Word)
  | dec (dcmd : BitVec 2) (ibuf : List Byte)
deriving DecidableEq, Repr

/-- The unit a port belongs to. -/
def PortWord.unit : PortWord → UnitId
  | .enc _ _ => .enc
  | .dec _ _ => .dec

/-- The encoded form of an instruction, by the formats of the opcode table: a command port's signals,
the header byte (WIRE_BYTE0), the seed's bits (WIRE_SEED) or a record's bits (WIRE_RECORD), bits in
stream order. -/
inductive Code where
  | port (p : PortWord)
  | byte0 (b : Byte)
  | seedBits (bits : List Bool)
  | recordBits (bits : List Bool)
deriving DecidableEq, Repr

/-- What the host does at the block's boundary, one event at a time (20_memory.md R73, R75). -/
inductive HostEvent where
  /-- One command, issued when the unit's previous command has returned. -/
  | command (p : PortWord)
  /-- Two commands issued at once: legal on the two units, a protocol violation on one unit (R73). -/
  | together (p q : PortWord)
  /-- The host changes its own copy of the bytes it gave to the last DEC_SETBYTES (R75). -/
  | changeInput
deriving DecidableEq, Repr

end Sys2Proof
end

