-- ==== Sys2Proof/Machine/Operands.lean ====
section
/-! DEFINITION. Operand assembly: bit strings, counts, the clamp, the sigbits field, the window's width
and the delta (00_scope.md R8 to R10, 30_encoding.md R101, R104, R105, R108, R109, 40_encoder.md R145). -/

namespace Sys2Proof.Machine

/-- The low `n` bits of `v` in stream order, most significant first (00_scope.md R12, 20_memory.md
R63). -/
def bitsOf (v : Word) : Nat → List Bool
  | 0 => []
  | n + 1 => v.getLsbD n :: bitsOf v n

/-- Append one bit at the low end of a value being read: `(r << 1) | b` (20_memory.md R66). -/
def shiftIn (r : Word) (b : Bool) : Word :=
  (r <<< 1) ||| (if b then 1#64 else 0#64)

/-- The value of a bit string read first bit most significant (20_memory.md R66). -/
def wordOf (bits : List Bool) : Word :=
  bits.foldl shiftIn 0#64

/-- `IsNaN(b)`: exponent bits all 1 and fraction not 0 (00_scope.md R10; log entry 12). -/
def isNaN (w : Word) : Bool :=
  w.extractLsb' 52 11 == 0x7FF#11 && w.extractLsb' 0 52 != 0#52

/-- The number of zero bits above the highest one bit among the low `k` bits. -/
def clzFrom (x : Word) : Nat → Nat
  | 0 => 0
  | k + 1 => if x.getLsbD k then 0 else clzFrom x k + 1

/-- The number of zero bits below the lowest one bit, looking at `k` bits up to bit 63. -/
def ctzFrom (x : Word) : Nat → Nat
  | 0 => 0
  | k + 1 => if x.getLsbD (63 - k) then 0 else ctzFrom x k + 1

/-- `clz64` (00_scope.md R9). -/
def clz64 (x : Word) : Nat := clzFrom x 64

/-- `ctz64` (00_scope.md R9). -/
def ctz64 (x : Word) : Nat := ctzFrom x 64

/-- `Clamp(x)` (40_encoder.md R145, R162). -/
def clampLead : LeadClamp → Nat → Nat
  | .min, x => Nat.min x 31
  | .mask5, x => x &&& 0x1F

/-- `S` from the field `s6`: 64 when the field is 0 (30_encoding.md R108). -/
def sigCount (s6 : BitVec 6) : Nat :=
  if s6 = 0#6 then 64 else s6.toNat

/-- The field `s6` from `S`: 0 when `S = 64` (30_encoding.md R108). -/
def sigField (S : Nat) : BitVec 6 :=
  if S = 64 then 0#6 else BitVec.ofNat 6 S

/-- `L + S > 64`: the NEW record is malformed (30_encoding.md R111). -/
def malformedNew (lead : BitVec 5) (s6 : BitVec 6) : Bool :=
  decide (lead.toNat + sigCount s6 > 64)

/-- The window a NEW record sets: `(L, (64 - L - S) mod 2^64)` (41_decoder.md R195, R200). -/
def newRecordWindow (lead : BitVec 5) (s6 : BitVec 6) : Window :=
  ⟨lead, 64#64 - lead.setWidth 64 - BitVec.ofNat 64 (sigCount s6)⟩

/-- `n = (64 - lead - trail) mod 2^64`, how many significant bits a record of this window carries
(41_decoder.md R190, R196). -/
def windowWidth (W : Window) : Nat :=
  (64#64 - W.lead.setWidth 64 - W.trail).toNat

/-- The delta of a windowed record: `m << trail`, and 0 where the shift is 64 or more (41_decoder.md
R190, R196, R200). -/
def deltaOf (trail m : Word) : Word :=
  if trail.toNat ≤ 63 then m <<< trail.toNat else 0#64

/-- The header byte ENC writes: `P_HEADER_ID << 4` (10_state.md R29, 30_encoding.md R101). -/
def headerByte (id : BitVec 4) : Byte :=
  id.setWidth 8 <<< 4

end Sys2Proof.Machine
end

