-- ==== Sys2Proof/WellFormed.lean ====
section
/-! DEFINITION. Well-formed configurations, records and instructions. -/

namespace Sys2Proof

open Sys2Proof.Machine

/-- A capacity parameter is unbounded or at least 9 bytes (00_scope.md R7). -/
def capLegal : Option Nat → Bool
  | none => true
  | some c => decide (9 ≤ c)

/-- A legal configuration: the sentinel is a NaN pattern and the capacities are legal (00_scope.md
R7). -/
def Config.wf (cfg : Config) : Bool :=
  isNaN cfg.sentinel && capLegal cfg.outCap && capLegal cfg.inCap

/-- A length fits a capacity parameter (00_scope.md R7). -/
def fitsCap : Option Nat → Nat → Bool
  | none, _ => true
  | some c, n => decide (n ≤ c)

/-- A record is well-formed under the window in force: its significant bits fit their field, and a NEW
record has `L + S ≤ 64` (30_encoding.md R104, R105, R109, R111). -/
def Record.wf (W : Window) : Record → Bool
  | .same => true
  | .reuse m => decide (1 ≤ windowWidth W) && decide (windowWidth W ≤ 64) && decide (m.toNat < 2 ^ windowWidth W)
  | .newWindow lead s6 m => !malformedNew lead s6 && decide (m.toNat < 2 ^ sigCount s6)

/-- A record that a decoder of this policy reads whole: as well-formed, but that `go_wrap` also reads a NEW
record with `L + S > 64` (41_decoder.md R199, R200). -/
def Record.readable (policy : MalformedPolicy) (W : Window) : Record → Bool
  | .same => true
  | .reuse m => decide (1 ≤ windowWidth W) && decide (windowWidth W ≤ 64) && decide (m.toNat < 2 ^ windowWidth W)
  | .newWindow lead s6 m => !(malformedNew lead s6 && policy == .error) && decide (m.toNat < 2 ^ sigCount s6)

/-- An instruction is well-formed: an input buffer fits `P_IN_CAP` (30_encoding.md R116), a record is
well-formed; every other operand is legal at every value. -/
def Instr.wf (cfg : Config) (W : Window) : Instr → Bool
  | .encWrite _ => true
  | .encFlush => true
  | .encBytes => true
  | .encReset => true
  | .decSetbytes ibuf => fitsCap cfg.inCap ibuf.length
  | .decNext => true
  | .decValue => true
  | .decError => true
  | .header _ => true
  | .seed _ => true
  | .same => Record.wf W .same
  | .reuse m => Record.wf W (.reuse m)
  | .newWindow lead s6 m => Record.wf W (.newWindow lead s6 m)

end Sys2Proof
end

