-- ==== Sys2Proof/Decode.lean ====
section
/-! DEFINITION. The decoder of the two command ports and of the wire format, total, and after it the
encoder. -/

namespace Sys2Proof

open Sys2Proof.Machine

/-- What reading one value record finds. Positions are counted from the record's first bit. -/
inductive RecordRead where
  /-- A whole record. A malformed NEW record under `P_MALFORMED = error` is read up to `s6` alone and
  carries 0 for its significant bits, which nothing reads (60_exceptions.md R237; log entry 11). -/
  | record (r : Record)
  /-- A read ran past the end after `bitsRead` bits of the record; `inNew` says that the second control
  bit had selected a NEW record (41_decoder.md R198). -/
  | truncated (bitsRead : Nat) (inNew : Bool)
deriving DecidableEq, Repr

/-- Read one value record at `pos` (30_encoding.md R110; the reads of 41_decoder.md R190). `get p n` is
the value of the `n` bits at `p`, or none where they run past the end. -/
def readRecord (get : Nat → Nat → Option Word) (policy : MalformedPolicy) (W : Window) (pos : Nat) :
    RecordRead :=
  match get pos 1 with
  | none => .truncated 0 false
  | some c1 =>
    if c1 = 0#64 then .record .same
    else
      match get (pos + 1) 1 with
      | none => .truncated 1 false
      | some c2 =>
        if c2 = 0#64 then
          match get (pos + 2) (windowWidth W) with
          | none => .truncated 2 false
          | some m => .record (.reuse m)
        else
          match get (pos + 2) 5 with
          | none => .truncated 2 true
          | some l =>
            match get (pos + 7) 6 with
            | none => .truncated 7 true
            | some s =>
              let lead := l.setWidth 5
              let s6 := s.setWidth 6
              if malformedNew lead s6 && policy == .error then .record (.newWindow lead s6 0#64)
              else
                match get (pos + 13) (sigCount s6) with
                | none => .truncated 13 true
                | some m => .record (.newWindow lead s6 m)

/-- How many bits a record has under the window in force (30_encoding.md R103 to R105, R118). -/
def recordLength (W : Window) : Record → Nat
  | .same => 1
  | .reuse _ => 2 + windowWidth W
  | .newWindow _ s6 _ => 13 + sigCount s6

/-- The record is a malformed NEW record and the policy refuses it (41_decoder.md R199). -/
def refusedMalformed (policy : MalformedPolicy) : Record → Bool
  | .same => false
  | .reuse _ => false
  | .newWindow lead s6 _ => malformedNew lead s6 && policy == .error

/-- The reader of a plain bit string: the `n` bits at `p`, all or nothing. -/
def bitsGet (bits : List Bool) (p n : Nat) : Option Word :=
  if p + n ≤ bits.length then some (wordOf ((bits.drop p).take n)) else none

/-- The ENC port's decoder (30_encoding.md R114): every opcode value names a command (R116). -/
def decodeEncPort (ecmd : BitVec 2) (wdata : Word) : Instr :=
  if ecmd = 0b00#2 then .encWrite wdata
  else if ecmd = 0b01#2 then .encFlush
  else if ecmd = 0b10#2 then .encBytes
  else .encReset

/-- The DEC port's decoder (30_encoding.md R115): every opcode value names a command (R116). -/
def decodeDecPort (dcmd : BitVec 2) (ibuf : List Byte) : Instr :=
  if dcmd = 0b00#2 then .decSetbytes ibuf
  else if dcmd = 0b01#2 then .decNext
  else if dcmd = 0b10#2 then .decValue
  else .decError

/-- The decoder of a command port's signals. -/
def decodePort : PortWord → Instr
  | .enc ecmd wdata => decodeEncPort ecmd wdata
  | .dec dcmd ibuf => decodeDecPort dcmd ibuf

/-- Why a code is no instruction. -/
inductive DecodeError where
  /-- A seed is not 64 bits (30_encoding.md R102). -/
  | seedLength
  /-- The bits end before the record does (30_encoding.md R110). -/
  | recordTruncated
  /-- Bits follow the record, which is no part of it. -/
  | trailingBits
  /-- A NEW record with `L + S > 64` under `P_MALFORMED = error` (30_encoding.md R111). -/
  | malformedNew
deriving DecidableEq, Repr

/-- The decoder: the instruction a code stands for, under the window in force, or why it is none. -/
def decode (policy : MalformedPolicy) (W : Window) : Code → Except DecodeError Instr
  | .port p => .ok (decodePort p)
  | .byte0 b => .ok (.header b)
  | .seedBits bits => if bits.length = 64 then .ok (.seed (wordOf bits)) else .error .seedLength
  | .recordBits bits =>
    match readRecord (bitsGet bits) policy W 0 with
    | .truncated _ _ => .error .recordTruncated
    | .record r =>
      if refusedMalformed policy r then .error .malformedNew
      else if bits.length = recordLength W r then .ok r.toInstr
      else .error .trailingBits

/-- The bits of a record in stream order (30_encoding.md R103 to R105). -/
def encodeRecord (W : Window) : Record → List Bool
  | .same => [false]
  | .reuse m => [true, false] ++ bitsOf m (windowWidth W)
  | .newWindow lead s6 m =>
    [true, true] ++ bitsOf (lead.setWidth 64) 5 ++ bitsOf (s6.setWidth 64) 6
      ++ bitsOf m (sigCount s6)

/-- The encoder: the code of an instruction under the window in force (30_encoding.md R101 to R105,
R114, R115). Operand lines that a command does not use carry 0. -/
def encode (W : Window) : Instr → Code
  | .encWrite wdata => .port (.enc 0b00#2 wdata)
  | .encFlush => .port (.enc 0b01#2 0#64)
  | .encBytes => .port (.enc 0b10#2 0#64)
  | .encReset => .port (.enc 0b11#2 0#64)
  | .decSetbytes ibuf => .port (.dec 0b00#2 ibuf)
  | .decNext => .port (.dec 0b01#2 [])
  | .decValue => .port (.dec 0b10#2 [])
  | .decError => .port (.dec 0b11#2 [])
  | .header b => .byte0 b
  | .seed v => .seedBits (bitsOf v 64)
  | .same => .recordBits (encodeRecord W .same)
  | .reuse m => .recordBits (encodeRecord W (.reuse m))
  | .newWindow lead s6 m => .recordBits (encodeRecord W (.newWindow lead s6 m))

/-- The port signals of a table word (log entry 3): `ecmd` is bits 1:0 and `wdata` bits 65:2 of the ENC
port's word; bits above `nbits` are 0. -/
def portOfTableWord (nbits w : Nat) : PortWord :=
  .enc (BitVec.ofNat 2 (w % 2 ^ nbits)) (BitVec.ofNat 64 (w % 2 ^ nbits / 4))

/-- The instruction the decoder reads from a table word, on the ENC port (log entry 3). -/
def decodeTableWord (nbits w : Nat) : Option Instr :=
  some (decodePort (portOfTableWord nbits w))

end Sys2Proof
end

