-- ==== Sys2Proof/Machine/State.lean ====
section
/-! DEFINITION. The state: the registers of both units, their two byte address spaces, the command
results, the configuration, and the model's own fields; reset; the reasons a step can stop. -/

namespace Sys2Proof.Machine

/-- A byte address space, as (index, byte) pairs (20_memory.md R60). An unlisted index does not exist, so
it reads as no byte (log entry 10). -/
abbrev Memory := List Host.Cell

/-- The error kinds of 60_exceptions.md R230. -/
inductive ErrKind where
  | none
  | unsupportedValue
  | truncatedStream
  | malformedStream
deriving DecidableEq, Repr

/-- The encoder's registers (10_state.md R20). -/
structure Enc where
  /-- `enc.prev`: the last value the Write path accepted. -/
  prev : Word
  /-- `enc.win_valid`: a window is established. -/
  winValid : Bool
  /-- `enc.lead`: the window's leading count, clamped (R21). -/
  lead : BitVec 5
  /-- `enc.trail`: the window's trailing count (R21). -/
  trail : BitVec 6
  /-- `enc.first`: the next accepted write is the first of the session. -/
  first : Bool
  /-- `enc.finished`: ENC_FLUSH has completed in this session. -/
  finished : Bool
  /-- `enc.err`: the sticky encoder error (R28). -/
  err : ErrKind
  /-- `enc.out`: the completed bytes of the output buffer, the address space OUT. -/
  out : Memory
  /-- `enc.pend`: the pending bits, right-aligned (R23). -/
  pend : Byte
  /-- `enc.pcnt`: how many bits of `pend` are valid. -/
  pcnt : BitVec 3
deriving DecidableEq, Repr

/-- The decoder's registers (10_state.md R24). -/
structure Dec where
  /-- `dec.cur`: the current value. -/
  cur : Word
  /-- `dec.lead`: the window's leading count. -/
  lead : BitVec 5
  /-- `dec.trail`: the window's trailing count; at most 63 but under `go_wrap` (log entry 9). -/
  trail : Word
  /-- `dec.first`: the next DEC_NEXT consumes the seed. -/
  first : Bool
  /-- `dec.finished`: the end of stream has been recognised. -/
  finished : Bool
  /-- `dec.err`: the sticky decoder error (R28). -/
  err : ErrKind
  /-- `dec.in`: the buffer given to the last DEC_SETBYTES, the address space IN. -/
  inp : Memory
  /-- `dec.has_stream`: a bit stream is attached. -/
  hasStream : Bool
  /-- `dec.pos`: the index of the next bit to read (R25). -/
  pos : Nat
  /-- `dec.lim`: the number of bits in the attached bit stream. -/
  lim : Nat
deriving DecidableEq, Repr

/-- The result lines of the two command ports, each holding the last result returned on it
(30_encoding.md R114, R115; log entry 4). `olen` is the length of `obuf`. -/
structure Results where
  obuf : List Byte
  oerr : BitVec 2
  ok : Bool
  avail : Bool
  rdata : Word
  rerr : BitVec 2
deriving DecidableEq, Repr

/-- The machine's state. `cfg` is the configuration, constant for a machine (log entry 1); `inbox`,
`gotValue`, `inputInUse` and `freeIdx` are the model's own (log entries 2, 5, 8). -/
structure State where
  /-- The parameters of 00_scope.md R7; no step writes them. -/
  cfg : Config
  /-- The encoder unit. -/
  enc : Enc
  /-- The decoder unit. -/
  dec : Dec
  /-- The results last returned to the host. -/
  res : Results
  /-- DEC_NEXT has returned 1 in this session (the condition of 41_decoder.md R201). -/
  gotValue : Bool
  /-- DEC_SETBYTES has given an input buffer and no DEC_NEXT has returned 0 since: the host must not modify
  the buffer (70_reset_and_hazards.md R266, R273). -/
  inputInUse : Bool
  /-- What the host has issued and the block has not executed yet, oldest first (20_memory.md R73). -/
  inbox : List HostEvent
  /-- How many free values have been drawn. -/
  freeIdx : Nat
deriving DecidableEq, Repr

/-- Why a step stops with a fault. -/
inductive Fault where
  /-- CapacityExceeded: PutBit completes a byte while OUT holds `P_OUT_CAP` bytes (60_exceptions.md
  R234). Raised by ENC_WRITE and ENC_FLUSH. Safe: the source gives this case no behaviour. -/
  | capacityExceeded
deriving DecidableEq, Repr

/-- Why a step is refused. -/
inductive Refusal where
  /-- Raised by an arm of exec for an instruction that has no meaning yet; no arm raises it. Safe. -/
  | notModelled (mnemonic : String)
  /-- Two commands issued to one unit at once (20_memory.md R73, 60_exceptions.md R235). Raised by the
  step that meets them. Safe: the spec assigns no result. -/
  | concurrentCommands
  /-- DEC_SETBYTES with `ilen > P_IN_CAP` (60_exceptions.md R235). Safe: the spec assigns no result. -/
  | inputTooLong
  /-- The host changed an in-place input buffer during a session (60_exceptions.md R235,
  70_reset_and_hazards.md R266). Safe: the spec assigns no result. -/
  | inputChanged
deriving DecidableEq, Repr

/-- The newly constructed encoder (10_state.md R33). -/
def Enc.powerOn (cfg : Config) : Enc where
  prev := 0#64
  winValid := false
  lead := 0#5
  trail := 0#6
  first := true
  finished := false
  err := .none
  out := [(0, headerByte cfg.headerId)]
  pend := 0#8
  pcnt := 0#3

/-- The decoder at power-on: a session on an empty buffer (10_state.md R34). -/
def Dec.powerOn (cfg : Config) : Dec where
  cur := cfg.sentinel
  lead := 0#5
  trail := 0#64
  first := true
  finished := false
  err := .none
  inp := []
  hasStream := false
  pos := 0
  lim := 0

/-- The result lines before any command has returned a result (log entry 4). -/
def Results.powerOn : Results where
  obuf := []
  oerr := 0#2
  ok := false
  avail := false
  rdata := 0#64
  rerr := 0#2

/-- The machine of a configuration at power-on (70_reset_and_hazards.md R260). -/
def State.powerOn (cfg : Config) : State where
  cfg := cfg
  enc := Enc.powerOn cfg
  dec := Dec.powerOn cfg
  res := Results.powerOn
  gotValue := false
  inputInUse := false
  inbox := []
  freeIdx := 0

/-- The machine right after reset, with the default parameters of 00_scope.md R7. -/
def State.reset : State := State.powerOn Config.default

end Sys2Proof.Machine
end

