-- ==== Sys2Proof/Machine/Flags.lean ====
section
/-! DEFINITION. The error codes, and the flags and conditions the commands test and set. -/

namespace Sys2Proof.Machine

/-- The 2-bit code of an error kind (60_exceptions.md R230). -/
def ErrKind.code : ErrKind → BitVec 2
  | .none => 0#2
  | .unsupportedValue => 1#2
  | .truncatedStream => 2#2
  | .malformedStream => 3#2

/-- A write is rejected: a NaN, before finalization, not the sentinel write of ENC_FLUSH
(40_encoder.md R140, R141). -/
def rejectsWrite (w : Word) (bypass : Bool) (e : Enc) : Bool :=
  isNaN w && !e.finished && !bypass

/-- The window is reused: it exists and neither count is below it (40_encoder.md R146). -/
def reusesWindow (lead trail : Nat) (e : Enc) : Bool :=
  e.winValid && decide (e.lead.toNat ≤ lead) && decide (e.trail.toNat ≤ trail)

/-- DEC is terminal (00_scope.md R14, 41_decoder.md R191). -/
def terminal (d : Dec) : Bool :=
  d.err != .none || d.finished

end Sys2Proof.Machine
end

