-- ==== Sys2Proof/Machine/Ops.lean ====
section
/-! DEFINITION. The named operations: the byte memories, the bit packer and unpacker, the sticky errors,
the results, the free values, and taking the host's next event. -/

namespace Sys2Proof.Machine

/-! ## The byte memories (20_memory.md R60, R61) -/

/-- The length of a buffer. -/
def Memory.size (m : Memory) : Nat := m.length

/-- The byte at an index; none where the index does not exist. -/
def Memory.read (m : Memory) (a : Nat) : Option Byte :=
  (m.find? fun c => c.1 == a).map Prod.snd

/-- Append a byte at the end (20_memory.md R62). -/
def Memory.push (m : Memory) (b : Byte) : Memory :=
  m ++ [(m.size, b)]

/-- The bytes in index order. -/
def Memory.bytes (m : Memory) : List Byte := m.map Prod.snd

/-- The cells of a byte list placed from an index on. -/
def Memory.cellsFrom (a : Nat) : List Byte → Memory
  | [] => []
  | b :: bs => (a, b) :: Memory.cellsFrom (a + 1) bs

/-- The buffer that holds a byte list from index 0. -/
def Memory.ofBytes (bs : List Byte) : Memory := Memory.cellsFrom 0 bs

/-- The canonical form: the indices are 0, 1, 2, … in order, so they rise strictly and every index below
the length exists. -/
def Memory.wf (m : Memory) : Bool := m.map Prod.fst == List.range m.length

/-! ## The bit packer (20_memory.md R62 to R64) -/

/-- `PutBit(b)`; none is `fault CapacityExceeded` (20_memory.md R62). -/
def putBit (cap : Option Nat) (b : Bool) (e : Enc) : Option Enc :=
  let pend : Byte := (e.pend <<< 1) ||| (if b then 1#8 else 0#8)
  if e.pcnt.toNat + 1 = 8 then
    if cap = some e.out.size then none
    else some { e with out := e.out.push pend, pend := 0#8, pcnt := 0#3 }
  else some { e with pend := pend, pcnt := e.pcnt + 1#3 }

/-- `PutBits(v, n)` (20_memory.md R63). -/
def putBits (cap : Option Nat) (v : Word) : Nat → Enc → Option Enc
  | 0, e => some e
  | n + 1, e =>
    match putBit cap (v.getLsbD n) e with
    | none => none
    | some e' => putBits cap v n e'

/-- The loop of `PadToByte`, at most `fuel` times. -/
def padLoop (cap : Option Nat) : Nat → Enc → Option Enc
  | 0, e => some e
  | fuel + 1, e =>
    if e.pcnt = 0#3 then some e
    else
      match putBit cap false e with
      | none => none
      | some e' => padLoop cap fuel e'

/-- `PadToByte()` (20_memory.md R64); a 3-bit count needs at most 7 bits. -/
def padToByte (cap : Option Nat) (e : Enc) : Option Enc := padLoop cap 7 e

/-! ## The bit unpacker (20_memory.md R66, R67) -/

/-- Bit `p` of the stream held in a buffer: bit `7 - (p mod 8)` of byte `1 + p div 8` (10_state.md
R25). -/
def streamBit (inp : Memory) (p : Nat) : Option Bool :=
  (inp.read (1 + p / 8)).map fun b => b.getLsbD (7 - p % 8)

/-- The `n` bits at `p` shifted into `r`; none where a byte does not exist. -/
def readBits (inp : Memory) : Nat → Nat → Word → Option Word
  | _, 0, r => some r
  | p, n + 1, r =>
    match streamBit inp p with
    | none => none
    | some b => readBits inp (p + 1) n (shiftIn r b)

/-- The value `GetBits(n)` returns with the cursor at `p`; none is `fail` (20_memory.md R66). The caller
advances the cursor past the bits it has read. -/
def bitsAt (d : Dec) (p n : Nat) : Option Word :=
  if d.hasStream && decide (p + n ≤ d.lim) then readBits d.inp p n 0#64 else none

/-! ## Sticky errors: the block's exceptions (60_exceptions.md R238, R239) -/

/-- Error entry in ENC: only the error register is written (60_exceptions.md R238). Nothing is saved and
control does not move, so there is no return; ENC_RESET clears the error (R239). -/
def raiseEnc (k : ErrKind) (e : Enc) : Enc := { e with err := k }

/-- Error entry in DEC: only the error register is written, which makes the unit terminal
(60_exceptions.md R238). A successful DEC_SETBYTES clears it (R239). -/
def raiseDec (k : ErrKind) (d : Dec) : Dec := { d with err := k }

/-! ## Outcomes and results -/

/-- An encoder command that ran the packer: its next state, or the fault of 60_exceptions.md R234. -/
def encOutcome (s : State) : Option Enc → Host.Outcome State Fault Refusal
  | none => .fault .capacityExceeded
  | some e => .next { s with enc := e }

/-- DEC_NEXT returns 1. -/
def returnValue (s : State) : State :=
  { s with res := { s.res with avail := true }, gotValue := true }

/-- DEC_NEXT returns 0, which ends the decode session (70_reset_and_hazards.md R273). -/
def returnNone (s : State) : State :=
  { s with res := { s.res with avail := false }, inputInUse := false }

/-- The window in force in DEC. -/
def Dec.window (d : Dec) : Window := ⟨d.lead, d.trail⟩

/-- Draw the next free value. -/
def drawFree (s : State) : Word × State :=
  (Config.freeWord s.freeIdx, { s with freeIdx := s.freeIdx + 1 })

/-- The width of `dec.trail`: a free trailing count is any value the register can hold, 6 bits under
`error` and 64 under `go_wrap` (10_state.md R24). -/
def trailValue : MalformedPolicy → Word → Word
  | .error, w => (w.setWidth 6).setWidth 64
  | .goWrap, w => w

/-- The window registers take any value (41_decoder.md R198, 93_implementation_defined.md section 2;
log entry 7). -/
def freeWindow (s : State) : State :=
  let (l, s1) := drawFree s
  let (t, s2) := drawFree s1
  { s2 with dec := { s2.dec with lead := l.setWidth 5, trail := trailValue s.cfg.malformed t } }

/-! ## The host's next event (20_memory.md R73, 70_reset_and_hazards.md R262) -/

/-- What the step finds to do. -/
inductive Fetched where
  /-- No event: the block executes nothing (70_reset_and_hazards.md R262). -/
  | idle
  /-- Execute the command on these port signals; the state is the one it starts from. -/
  | issue (p : PortWord) (s : State)
  /-- Two commands at once on one unit (20_memory.md R73). -/
  | clash
  /-- The host changes its copy of the input (20_memory.md R75). -/
  | inputChange (s : State)
deriving DecidableEq, Repr

/-- Take the host's next event. Two commands at once on the two units are two independent commands,
executed one after the other (20_memory.md R73). -/
def fetch (s : State) : Fetched :=
  match s.inbox with
  | [] => .idle
  | .command p :: rest => .issue p { s with inbox := rest }
  | .together p q :: rest =>
    if p.unit = q.unit then .clash else .issue p { s with inbox := .command q :: rest }
  | .changeInput :: rest => .inputChange { s with inbox := rest }

/-- The host changes its copy of the input buffer. DEC has its own copy, so nothing changes
(20_memory.md R75); a realisation that reads the buffer in place refuses it from DEC_SETBYTES
until the session ends (60_exceptions.md R235, 70_reset_and_hazards.md R266; log entry 8). -/
def hostChangesInput (s : State) : Host.Outcome State Fault Refusal :=
  if s.cfg.inPlace && s.inputInUse then .refused .inputChanged else .next s

/-- Put a command at the head of what the host has issued. -/
def issueFirst (p : PortWord) (s : State) : State :=
  { s with inbox := .command p :: s.inbox }

end Sys2Proof.Machine
end

