-- ==== Sys2Proof/Machine/Wire.lean ====
section
/-! DEFINITION. The wire records, as DEC executes them: HEADER and SEED inside DEC_SETBYTES, one of SAME,
REUSE and NEW inside DEC_NEXT (10_state.md R25; log entry 11). -/

namespace Sys2Proof.Machine

/-! ## HEADER and SEED -/

/-- A new session on a seed: the window, the flags and the error take their initial values and
DEC_SETBYTES returns 1 (41_decoder.md R180, R182). -/
def startSession (seed : Word) (s : State) : State :=
  { s with
    dec := { s.dec with
      cur := seed, lead := 0#5, trail := 0#64, first := true, finished := false, err := .none }
    res := { s.res with ok := true }
    gotValue := false
    inputInUse := true }

/-- HEADER: byte 0 is skipped without any check and the remaining bytes are attached as the bit stream,
the cursor at its first bit (41_decoder.md R182, R184). -/
def skipHeader (s : State) : State :=
  { s with dec := { s.dec with
    hasStream := decide (s.dec.inp.size ≠ 0), lim := 8 * (s.dec.inp.size - 1), pos := 0 } }

/-- SEED: the first 64 stream bits, taken verbatim as the current value (41_decoder.md R182). -/
def takeSeed (v : Word) (s : State) : State :=
  startSession v { s with dec := { s.dec with pos := 64 } }

/-- HEADER (30_encoding.md R101, 41_decoder.md R184): the byte's value is ignored. -/
def execHeader (_b : Byte) (s : State) : Host.Outcome State Fault Refusal :=
  .next (skipHeader s)

/-- SEED (30_encoding.md R102, 41_decoder.md R182). -/
def execSeed (v : Word) (s : State) : Host.Outcome State Fault Refusal :=
  .next (takeSeed v s)

/-! ## SAME, REUSE and NEW -/

/-- The cursor moves past `n` bits that were read (20_memory.md R66). -/
def advance (n : Nat) (s : State) : State :=
  { s with dec := { s.dec with pos := s.dec.pos + n } }

/-- The candidate of a windowed record, with the window in force: END where it equals SENTINEL, else the
new current value (41_decoder.md R196, R197). -/
def takeDelta (m : Word) (s : State) : State :=
  let c := s.dec.cur ^^^ deltaOf s.dec.trail m
  if c = s.cfg.sentinel then returnNone { s with dec := { s.dec with finished := true } }
  else returnValue { s with dec := { s.dec with cur := c } }

/-- SAME: value unchanged (41_decoder.md R192). -/
def recordSame (s : State) : State :=
  returnValue (advance 1 s)

/-- REUSE: the window in force (41_decoder.md R194, R196). -/
def recordReuse (m : Word) (s : State) : State :=
  takeDelta m (advance (2 + windowWidth s.dec.window) s)

/-- NEW: under `P_MALFORMED = error` a record with `L + S > 64` is an error found after `s6`, and writes
neither the window nor the value (41_decoder.md R199); otherwise the window becomes
`(L, (64 - L - S) mod 2^64)` (R195, R200) and the record carries `S` bits (R196). -/
def recordNew (lead : BitVec 5) (s6 : BitVec 6) (m : Word) (s : State) : State :=
  if malformedNew lead s6 && s.cfg.malformed == .error then
    let s1 := advance 13 s
    returnNone { s1 with dec := raiseDec .malformedStream s1.dec }
  else
    let W := newRecordWindow lead s6
    let s1 := advance (13 + sigCount s6) s
    takeDelta m { s1 with dec := { s1.dec with lead := W.lead, trail := W.trail } }

/-- The effect of one value record standing at the cursor. -/
def runRecord : Record → State → State
  | .same, s => recordSame s
  | .reuse m, s => recordReuse m s
  | .newWindow lead s6 m, s => recordNew lead s6 m s

/-- The seed step: the first DEC_NEXT of a session consumes the seed and reads no bit (41_decoder.md
R191). -/
def seedStep (s : State) : State :=
  let s1 := { s with dec := { s.dec with first := false } }
  if s.dec.cur = s.cfg.sentinel then returnNone { s1 with dec := { s1.dec with finished := true } }
  else returnValue s1

/-- The first two checks of DEC_NEXT, in order: a terminal unit reads nothing and returns 0, the first
call consumes the seed; then `k` (41_decoder.md R190, R191, 60_exceptions.md R237). -/
def afterChecks (s : State) (k : State → State) : State :=
  if terminal s.dec then returnNone s
  else if s.dec.first then seedStep s
  else k s

/-- SAME (30_encoding.md R103, 41_decoder.md R192), as the DEC_NEXT that reads it executes it. -/
def execSame (s : State) : Host.Outcome State Fault Refusal :=
  .next (afterChecks s recordSame)

/-- REUSE (30_encoding.md R104, 41_decoder.md R194, R196, R197), as the DEC_NEXT that reads it executes
it. -/
def execReuse (m : Word) (s : State) : Host.Outcome State Fault Refusal :=
  .next (afterChecks s (recordReuse m))

/-- NEW (30_encoding.md R105, 41_decoder.md R195 to R197, R199, R200), as the DEC_NEXT that reads it
executes it. -/
def execNewWindow (lead : BitVec 5) (s6 : BitVec 6) (m : Word) (s : State) :
    Host.Outcome State Fault Refusal :=
  .next (afterChecks s (recordNew lead s6 m))

end Sys2Proof.Machine
end

