-- ==== Sys2Proof/Machine/Decoder.lean ====
section
/-! DEFINITION. The decoder's commands (41_decoder.md). -/

namespace Sys2Proof.Machine

/-- The failure of DEC_SETBYTES: the unit is terminal, the current value is any value (41_decoder.md
R180, R183; log entry 6). The session it starts lasts until a DEC_NEXT returns 0 (70_reset_and_hazards.md
R266, R273). -/
def failSession (s : State) : State :=
  let (v, s1) := drawFree s
  { s1 with
    dec := raiseDec .truncatedStream
      { s1.dec with cur := v, lead := 0#5, trail := 0#64, first := true, finished := false }
    res := { s1.res with ok := false }
    gotValue := false
    inputInUse := true }

/-- The body of DEC_SETBYTES after the length check (41_decoder.md R180 to R183). -/
def setBytes (ibuf : List Byte) (s : State) : State :=
  let s1 := { s with dec := { s.dec with inp := Memory.ofBytes ibuf, pos := 0 } }
  if ibuf.length = 0 then
    startSession s.cfg.sentinel { s1 with dec := { s1.dec with hasStream := false, lim := 0 } }
  else
    let s2 := skipHeader s1
    match bitsAt s2.dec 0 64 with
    | none => failSession s2
    | some v => takeSeed v s2

/-- DEC_SETBYTES (41_decoder.md R180 to R184). -/
def execDecSetbytes (ibuf : List Byte) (s : State) : Host.Outcome State Fault Refusal :=
  if fitsCap s.cfg.inCap ibuf.length then .next (setBytes ibuf s) else .refused .inputTooLong

/-- A read of DEC_NEXT ran past the end: the cursor stands after the bits read before it, and the window
is any value where a NEW record was cut (41_decoder.md R198, 60_exceptions.md R238; log entry 7). -/
def truncate (bitsRead : Nat) (inNew : Bool) (s : State) : State :=
  let s1 := advance bitsRead s
  let s2 := if inNew then freeWindow s1 else s1
  returnNone { s2 with dec := raiseDec .truncatedStream s2.dec }

/-- What stands at DEC's cursor (41_decoder.md R190). -/
def fetchRecord (s : State) : RecordRead :=
  readRecord (bitsAt s.dec) s.cfg.malformed s.dec.window s.dec.pos

/-- Read the record at the cursor and execute it (41_decoder.md R190, R192 to R200). -/
def nextRecord (s : State) : State :=
  match fetchRecord s with
  | .record r => runRecord r s
  | .truncated bitsRead inNew => truncate bitsRead inNew s

/-- DEC_NEXT (41_decoder.md R190 to R200). -/
def execDecNext (s : State) : Host.Outcome State Fault Refusal :=
  .next (afterChecks s nextRecord)

/-- DEC_VALUE (41_decoder.md R201): the current value once DEC_NEXT has returned 1 in the session, any
value before that (log entry 5). No register is written. -/
def execDecValue (s : State) : Host.Outcome State Fault Refusal :=
  if s.gotValue then .next { s with res := { s.res with rdata := s.dec.cur } }
  else
    let (v, s1) := drawFree s
    .next { s1 with res := { s1.res with rdata := v } }

/-- DEC_ERROR (41_decoder.md R202): no register is written. -/
def execDecError (s : State) : Host.Outcome State Fault Refusal :=
  .next { s with res := { s.res with rerr := s.dec.err.code } }

end Sys2Proof.Machine
end

