-- ==== Sys2Proof/Machine/Encoder.lean ====
section
/-! DEFINITION. The encoder's commands (40_encoder.md). -/

namespace Sys2Proof.Machine

/-- The NEW branch of the Write path for the delta `d` with counts `L` and `T` (40_encoder.md R140,
R146): set the window, emit `1`, `L:5`, `s6:6` and the significant bits. -/
def emitNew (cap : Option Nat) (d : Word) (L T : Nat) (e : Enc) : Option Enc :=
  let S := 64 - L - T
  let e1 := { e with winValid := true, lead := BitVec.ofNat 5 L, trail := BitVec.ofNat 6 T }
  (putBit cap true e1).bind fun e2 =>
  (putBits cap (BitVec.ofNat 64 L) 5 e2).bind fun e3 =>
  (putBits cap ((sigField S).setWidth 64) 6 e3).bind fun e4 =>
  putBits cap (d >>> T) S e4

/-- The REUSE branch of the Write path (40_encoder.md R140, R147): emit `0` and the significant bits of
the stored window. -/
def emitReuse (cap : Option Nat) (d : Word) (e : Enc) : Option Enc :=
  (putBit cap false e).bind fun e1 =>
  putBits cap (d >>> e.trail.toNat) (64 - e.lead.toNat - e.trail.toNat) e1

/-- The record of a delta (40_encoder.md R144 to R147). -/
def emitRecord (cfg : Config) (d : Word) (e : Enc) : Option Enc :=
  if d = 0#64 then putBit cfg.outCap false e
  else
    (putBit cfg.outCap true e).bind fun e1 =>
    let T := ctz64 d
    let L := clampLead cfg.leadClamp (clz64 d)
    if reusesWindow L T e1 then emitReuse cfg.outCap d e1
    else emitNew cfg.outCap d L T e1

/-- `WritePath(w, bypass)` (40_encoder.md R140); none is `fault CapacityExceeded`. -/
def writePath (cfg : Config) (w : Word) (bypass : Bool) (e : Enc) : Option Enc :=
  if rejectsWrite w bypass e then some (raiseEnc .unsupportedValue e)
  else if e.first then
    putBits cfg.outCap w 64 { e with prev := w, first := false }
  else
    (emitRecord cfg (w ^^^ e.prev) e).map fun e' => { e' with prev := w }

/-- ENC_WRITE (40_encoder.md R140 to R149). -/
def execEncWrite (wdata : Word) (s : State) : Host.Outcome State Fault Refusal :=
  encOutcome s (writePath s.cfg wdata false s.enc)

/-- The finalization of a stream: the sentinel through the Write path, the padding, then `finished`
(40_encoder.md R150). -/
def finalize (cfg : Config) (e : Enc) : Option Enc :=
  (writePath cfg cfg.sentinel true e).bind fun e1 =>
  (padToByte cfg.outCap e1).map fun e2 => { e2 with finished := true }

/-- ENC_FLUSH (40_encoder.md R150 to R154). -/
def execEncFlush (s : State) : Host.Outcome State Fault Refusal :=
  if s.enc.finished then .next s else encOutcome s (finalize s.cfg s.enc)

/-- The tail byte ENC_BYTES adds: the pending bits, zero-filled, under `padded` (40_encoder.md R155). -/
def tailBytes (policy : PreflushTail) (e : Enc) : List Byte :=
  if e.pcnt ≠ 0#3 ∧ policy = .padded then [e.pend <<< (8 - e.pcnt.toNat)] else []

/-- ENC_BYTES (40_encoder.md R155 to R157): no register is written. -/
def execEncBytes (s : State) : Host.Outcome State Fault Refusal :=
  .next { s with res := { s.res with
    obuf := s.enc.out.bytes ++ tailBytes s.cfg.preflushTail s.enc
    oerr := s.enc.err.code } }

/-- ENC_RESET (40_encoder.md R158): every encoder register is written. -/
def execEncReset (s : State) : Host.Outcome State Fault Refusal :=
  .next { s with enc :=
    { prev := 0#64, winValid := false, lead := 0#5, trail := 0#6, first := true, finished := false,
      err := .none, out := Memory.ofBytes [headerByte s.cfg.headerId], pend := 0#8, pcnt := 0#3 } }

end Sys2Proof.Machine
end

