-- ==== Sys2Proof/Machine/Dispatch.lean ====
section
/-! DEFINITION. The dispatch: one meaning per instruction. -/

namespace Sys2Proof.Machine

/-- The meaning of every instruction. -/
def exec (i : Instr) (s : State) : Host.Outcome State Fault Refusal :=
  match i with
  | .encWrite wdata => Sys2Proof.Machine.execEncWrite wdata s
  | .encFlush => Sys2Proof.Machine.execEncFlush s
  | .encBytes => Sys2Proof.Machine.execEncBytes s
  | .encReset => Sys2Proof.Machine.execEncReset s
  | .decSetbytes ibuf => Sys2Proof.Machine.execDecSetbytes ibuf s
  | .decNext => Sys2Proof.Machine.execDecNext s
  | .decValue => Sys2Proof.Machine.execDecValue s
  | .decError => Sys2Proof.Machine.execDecError s
  | .header b => Sys2Proof.Machine.execHeader b s
  | .seed v => Sys2Proof.Machine.execSeed v s
  | .same => Sys2Proof.Machine.execSame s
  | .reuse m => Sys2Proof.Machine.execReuse m s
  | .newWindow lead s6 m => Sys2Proof.Machine.execNewWindow lead s6 m s

end Sys2Proof.Machine
end

