-- ==== Sys2Proof/Machine/Step.lean ====
section
/-! DEFINITION. The step: one host event. -/

namespace Sys2Proof.Machine

/-- One step: the host's next event, a command decoded from its port's signals and executed. With no
event the block executes nothing (70_reset_and_hazards.md R262; log entry 2). -/
def step (s : State) : Host.Outcome State Fault Refusal :=
  match fetch s with
  | .idle => .next s
  | .issue p s1 => exec (decodePort p) s1
  | .clash => .refused .concurrentCommands
  | .inputChange s1 => hostChangesInput s1

/-- The state in which the host has issued the table word's command before everything else it has issued
(log entries 2, 3). -/
def State.withFetchWord (s : State) (nbits w : Nat) : State :=
  issueFirst (portOfTableWord nbits w) s

end Sys2Proof.Machine
end

