-- ==== Sys2Proof/Safety.lean ====
section
/-! DEFINITION. The terms in which claims speak: the bit stream an encoder holds, room in its buffer,
well-formed registers, the invariant of the machine, and runs of commands. -/

namespace Sys2Proof.Machine

/-! ## The streams as bit strings -/

/-- The eight bits of a byte, bit 7 first (20_memory.md R61). -/
def byteBits (b : Byte) : List Bool := bitsOf (b.setWidth 64) 8

/-- The bit stream a buffer holds: the bits of the bytes after the header (20_memory.md R61). -/
def streamOf (bytes : List Byte) : List Bool := (bytes.drop 1).flatMap byteBits

/-- The eight bytes of a word, most significant first (20_memory.md R68). -/
def bigEndian (w : Word) : List Byte := (List.range 8).map fun k => w.extractLsb' (56 - 8 * k) 8

/-- The bit stream ENC has written: the completed bytes after the header, then the pending bits
(10_state.md R22, R23). -/
def Enc.bits (e : Enc) : List Bool :=
  streamOf e.out.bytes ++ bitsOf (e.pend.setWidth 64) e.pcnt.toNat

/-- `enc.bitlen` (10_state.md R22). -/
def Enc.bitlen (e : Enc) : Nat := 8 * (e.out.size - 1) + e.pcnt.toNat

/-- The packer's registers have their form: OUT holds at least the header, and the bits of `enc.pend`
above `enc.pcnt` are 0 (10_state.md R20, R23). -/
abbrev Enc.Packed (e : Enc) : Prop :=
  e.out.wf = true ∧ 1 ≤ e.out.size ∧ e.pend.toNat < 2 ^ e.pcnt.toNat

/-- OUT has room for `n` more bits (20_memory.md R62). -/
abbrev Enc.HasRoom (cap : Option Nat) (n : Nat) (e : Enc) : Prop :=
  fitsCap cap (e.out.size + (e.pcnt.toNat + n) / 8) = true

/-- `e'` is `e` with exactly these bits appended to its stream: the packer's registers keep their form,
OUT grows by the bytes completed, and no byte that was there changes. -/
structure Enc.Appended (e e' : Enc) (added : List Bool) : Prop where
  stream : e'.bits = e.bits ++ added
  packed : e'.Packed
  size : e'.out.size = e.out.size + (e.pcnt.toNat + added.length) / 8
  count : e'.pcnt.toNat = (e.pcnt.toNat + added.length) % 8
  kept : ∀ a, a < e.out.size → e'.out.read a = e.out.read a

/-- The bits of DEC's stream that the cursor has not passed. -/
def Dec.rest (d : Dec) : List Bool :=
  if d.hasStream then ((streamOf d.inp.bytes).take d.lim).drop d.pos else []

/-- The unpacker's registers have their form: IN is canonical, a stream is attached exactly when IN is
not empty, and it is the bits after the header (10_state.md R24, R25). -/
abbrev Dec.Attached (d : Dec) : Prop :=
  d.inp.wf = true ∧ d.hasStream = decide (d.inp.size ≠ 0) ∧ d.lim = 8 * (d.inp.size - 1) ∧ d.pos ≤ d.lim

/-! ## What an accepted write emits -/

/-- ENC's window. -/
def Enc.window (e : Enc) : Window := ⟨e.lead, e.trail.setWidth 64⟩

/-- The record the encoder chooses for a value after the first (40_encoder.md R144 to R147). -/
def chosenRecord (cfg : Config) (w : Word) (e : Enc) : Record :=
  let d := w ^^^ e.prev
  let T := ctz64 d
  let L := clampLead cfg.leadClamp (clz64 d)
  if d = 0#64 then .same
  else if reusesWindow L T e then .reuse (d >>> e.trail.toNat)
  else .newWindow (BitVec.ofNat 5 L) (sigField (64 - L - T)) (d >>> T)

/-- The bits an accepted write appends: the seed, or the chosen record (30_encoding.md R100). -/
def writeBits (cfg : Config) (w : Word) (e : Enc) : List Bool :=
  if e.first then bitsOf w 64 else encodeRecord e.window (chosenRecord cfg w e)

/-- The bits ENC_FLUSH appends: the sentinel's seed or END record, then zeros to the next byte boundary
(30_encoding.md R100, R106, R107). -/
def flushBits (cfg : Config) (e : Enc) : List Bool :=
  let b := writeBits cfg cfg.sentinel e
  b ++ List.replicate ((8 - (e.pcnt.toNat + b.length) % 8) % 8) false

/-! ## The invariant -/

/-- ENC's registers hold legal values and agree with each other (10_state.md R20 to R23, R29;
40_encoder.md R141, R143, R150, R161). -/
abbrev Enc.Inv (cfg : Config) (e : Enc) : Prop :=
  e.Packed ∧ e.out.read 0 = some (headerByte cfg.headerId) ∧ fitsCap cfg.outCap e.out.size = true ∧
  (e.err = .none ∨ e.err = .unsupportedValue) ∧
  (e.winValid = true → e.lead.toNat + e.trail.toNat ≤ 63) ∧
  (e.first = true → e.finished = false ∧ e.winValid = false ∧ e.out.size = 1 ∧ e.pcnt = 0#3) ∧
  (e.first = false → e.finished = false → isNaN e.prev = false)

/-- DEC's registers hold legal values and agree with each other (10_state.md R24 to R26; 41_decoder.md
R191, R196, R200; 70_reset_and_hazards.md R266, R273). `gotValue` says that the session has returned a value,
`inputInUse` that the session has not ended. -/
abbrev Dec.Inv (cfg : Config) (gotValue inputInUse : Bool) (d : Dec) : Prop :=
  d.Attached ∧ fitsCap cfg.inCap d.inp.size = true ∧ d.err ≠ .unsupportedValue ∧
  (cfg.malformed = .error → d.trail.toNat ≤ 63) ∧
  (d.err = .none → 1 ≤ windowWidth d.window ∧ windowWidth d.window ≤ 64) ∧
  (d.first = true → d.finished = false ∧ gotValue = false) ∧
  (gotValue = true → d.cur ≠ cfg.sentinel) ∧
  (d.first = false → d.err = .none → d.finished = false → gotValue = true) ∧
  (terminal d = false → inputInUse = true ∨ d.cur = cfg.sentinel) ∧
  (d.first = false → terminal d = true → inputInUse = false)

/-- The machine's invariant. -/
abbrev State.Inv (s : State) : Prop :=
  s.cfg.wf = true ∧ s.enc.Inv s.cfg ∧ s.dec.Inv s.cfg s.gotValue s.inputInUse

/-! ## Runs of commands -/

/-- The instructions the host issues on the encoder's port. -/
def onEncPort : Instr → Bool
  | .encWrite _ => true
  | .encFlush => true
  | .encBytes => true
  | .encReset => true
  | .decSetbytes _ => false
  | .decNext => false
  | .decValue => false
  | .decError => false
  | .header _ => false
  | .seed _ => false
  | .same => false
  | .reuse _ => false
  | .newWindow _ _ _ => false

/-- The instructions the host issues on the decoder's port. -/
def onDecPort : Instr → Bool
  | .encWrite _ => false
  | .encFlush => false
  | .encBytes => false
  | .encReset => false
  | .decSetbytes _ => true
  | .decNext => true
  | .decValue => true
  | .decError => true
  | .header _ => false
  | .seed _ => false
  | .same => false
  | .reuse _ => false
  | .newWindow _ _ _ => false

/-- Execute instructions in order, stopping at the first fault or refusal. -/
def runAll : List Instr → State → Host.Outcome State Fault Refusal
  | [], s => .next s
  | i :: is, s =>
    match exec i s with
    | .next t => runAll is t
    | .fault r => .fault r
    | .refused r => .refused r

/-- Pulling values one DEC_NEXT at a time, each read with DEC_VALUE, yields exactly this list and then the
end of the stream with no error (41_decoder.md R206). -/
def DecodesTo : List Word → State → Prop
  | [], s => ∃ t, exec .decNext s = .next t ∧ t.res.avail = false ∧ t.dec.err = .none ∧ t.dec.finished = true
  | v :: vs, s =>
    ∃ t u, exec .decNext s = .next t ∧ t.res.avail = true ∧ exec .decValue t = .next u ∧ u.res.rdata = v ∧
      DecodesTo vs u

/-- A run is safe when it neither faults nor is refused. -/
def SafeRun (is : List Instr) (s : State) : Prop := ∃ t, runAll is s = .next t

end Sys2Proof.Machine
end

