-- ==== Sys2Proof/Certificates/Slice0/Obligations.lean ====
section
/-! DEFINITION. The statements for the provers. `res` holds the result a command returned, `gotValue` records
that DEC_NEXT has returned 1 in the session and `inputInUse` that the session has not ended: the model's own
form (log entries 4, 5, 8). A wire record executed alone is the model's own form too (log entry 11). -/

open Sys2Proof Sys2Proof.Machine

/-! ## Encoding -/

/-- Every well-formed instruction is what its own code decodes to, under every window and policy, and so is
every record the policy reads, a NEW record with `L + S > 64` under `go_wrap` among them (30_encoding.md
sections 1 to 4). -/
def Obligations.DecodeInvertsEncode : Prop :=
  ∀ (policy : MalformedPolicy) (cfg : Config) (W : Window) (i : Instr),
    i.wf cfg W = true ∨ (∃ r : Record, i = r.toInstr ∧ r.readable policy W = true) →
    decode policy W (encode W i) = .ok i

/-- A record inside a stream is read back whole whatever stands before and after it, every record that the
policy reads: the format is self-delimiting (30_encoding.md sections 2 and 3). -/
def Obligations.RecordReadIsSelfDelimiting : Prop :=
  ∀ (policy : MalformedPolicy) (W : Window) (r : Record) (pre post : List Bool),
    r.readable policy W = true →
    readRecord (bitsGet (pre ++ encodeRecord W r ++ post)) policy W pre.length = .record r ∧
    (encodeRecord W r).length = recordLength W r

/-- Bits that decode to a record are that record's encoding: no bit of a record is ignored
(30_encoding.md section 1). -/
def Obligations.DecodedRecordReencodes : Prop :=
  ∀ (policy : MalformedPolicy) (W : Window) (bits : List Bool) (i : Instr),
    1 ≤ windowWidth W → windowWidth W ≤ 64 →
    decode policy W (.recordBits bits) = .ok i → encode W i = .recordBits bits

/-- There is no illegal control prefix: any string of 77 bits or more, the longest record's length,
starts with a record (30_encoding.md section 2). -/
def Obligations.EveryLongStringStartsWithRecord : Prop :=
  ∀ (policy : MalformedPolicy) (W : Window) (bits : List Bool),
    1 ≤ windowWidth W → windowWidth W ≤ 64 → 77 ≤ bits.length →
    ∃ r, readRecord (bitsGet bits) policy W 0 = .record r ∧ recordLength W r ≤ 77

/-- Codes written out from the spec's tables decode to the instructions they stand for (30_encoding.md
sections 1 and 4; the records of 95_test_vectors.md E3, V-ENC-3 and V-ENC-14). -/
def Obligations.WrittenCodesDecode : Prop :=
  decodePort (.enc 0b00#2 0x3FF0000000000000#64) = .encWrite 0x3FF0000000000000#64 ∧
  decodePort (.enc 0b11#2 0#64) = .encReset ∧
  decodePort (.dec 0b00#2 [0x10#8]) = .decSetbytes [0x10#8] ∧
  decodePort (.dec 0b01#2 []) = .decNext ∧
  decode .error ⟨0#5, 0#64⟩ (.recordBits [false]) = .ok .same ∧
  decode .error ⟨0#5, 63#64⟩ (.recordBits [true, false, true]) = .ok (.reuse 1#64) ∧
  decode .error ⟨0#5, 0#64⟩ (.recordBits
    [true, true, true, true, true, true, true, false, false, false, false, false, true, true])
    = .ok (.newWindow 31#5 1#6 1#64)

/-! ## The step -/

/-- The step executes the command the host has issued, decoded from its port's signals, with that event
taken from what is waiting; in particular the command a table word places (70_reset_and_hazards.md section 1,
30_encoding.md section 4). That a command waits as an event of `inbox`, and that a table word is read on the
ENC port and placed at the head of `inbox`, is the model's choice (log entries 2, 3). -/
def Obligations.StepRunsIssuedCommand : Prop :=
  (∀ (s : State) (p : PortWord) (rest : List HostEvent), s.inbox = .command p :: rest →
    step s = exec (decodePort p) { s with inbox := rest }) ∧
  (∀ (s : State) (nbits w : Nat), ∃ i, decodeTableWord nbits w = some i ∧
    step (s.withFetchWord nbits w) = exec i s)

/-- Commands issued at once: on the two units both are executed, one after the other; on one unit the run
is refused (20_memory.md section 5, 60_exceptions.md section 1; the event form is the model's, log
entry 2). -/
def Obligations.SimultaneousCommands : Prop :=
  ∀ (s : State) (p q : PortWord) (rest : List HostEvent), s.inbox = .together p q :: rest →
    (p.unit ≠ q.unit → step s = exec (decodePort p) { s with inbox := .command q :: rest }) ∧
    (p.unit = q.unit → step s = .refused .concurrentCommands)

/-- With no command issued the block executes nothing: with nothing waiting the step repeats the state, and
the host's change of its own copy of the input changes nothing where DEC has its own copy or the session has
ended, and is refused from DEC_SETBYTES until the session ends where the realisation reads the host's buffer in
place (20_memory.md section 5, 60_exceptions.md section 1, 70_reset_and_hazards.md sections 1 and 3). The idle
step and the event are the model's choice (log entry 2), and so is the parameter `inPlace` (log entry 8). -/
def Obligations.IdleBlockKeepsState : Prop :=
  (∀ s : State, s.inbox = [] → step s = .next s) ∧
  (∀ (s : State) (rest : List HostEvent), s.inbox = .changeInput :: rest →
    (s.cfg.inPlace = false ∨ s.inputInUse = false → step s = .next { s with inbox := rest }) ∧
    (s.cfg.inPlace = true → s.inputInUse = true → step s = .refused .inputChanged))

/-- DEC_NEXT at a state whose unread bits begin with a record's encoding is that record's own meaning: the
records are the instructions DEC executes, a NEW record with `L + S > 64` under `go_wrap` among them
(10_state.md section 2, 41_decoder.md section 2; the record executed alone is the model's form, log
entry 11). -/
def Obligations.DecNextRunsRecordAtCursor : Prop :=
  ∀ (s : State) (r : Record) (post : List Bool), s.dec.Attached → r.readable s.cfg.malformed s.dec.window = true →
    s.dec.rest = encodeRecord s.dec.window r ++ post →
    exec .decNext s = exec r.toInstr s

/-- DEC_SETBYTES of at least 9 bytes is HEADER and then SEED executed on the new buffer (41_decoder.md
section 1; the two executed alone are the model's form, log entry 11). -/
def Obligations.SetbytesRunsHeaderAndSeed : Prop :=
  ∀ (s : State) (b : Byte) (rest : List Byte), fitsCap s.cfg.inCap (rest.length + 1) = true →
    8 ≤ rest.length →
    ∃ s1, exec (.header b) { s with dec := { s.dec with inp := Memory.ofBytes (b :: rest) } } = .next s1 ∧
      exec (.decSetbytes (b :: rest)) s = exec (.seed (wordOf ((streamOf (b :: rest)).take 64))) s1

/-! ## ENC_WRITE -/

/-- A NaN written before finalization changes the error register and nothing else; once the stream is
finalized it is appended like any value, and no error is raised. -/
def Obligations.NaNWriteRejectedUntilFinished : Prop :=
  (∀ (s : State) (w : Word), isNaN w = true → s.enc.finished = false →
    exec (.encWrite w) s = .next { s with enc := { s.enc with err := .unsupportedValue } }) ∧
  (∀ (s : State) (w : Word), s.enc.Inv s.cfg → isNaN w = true → s.enc.finished = true →
    s.enc.HasRoom s.cfg.outCap (writeBits s.cfg w s.enc).length →
    ∃ e, exec (.encWrite w) s = .next { s with enc := e } ∧ e.err = s.enc.err ∧ e.prev = w ∧
      s.enc.Appended e (writeBits s.cfg w s.enc))

/-- An earlier rejection changes nothing about a later accepted write but the error it reports
(60_exceptions.md section 1). -/
def Obligations.RejectionDoesNotStopWrites : Prop :=
  ∀ (s t : State) (w : Word) (k : ErrKind), isNaN w = false → exec (.encWrite w) s = .next t →
    exec (.encWrite w) { s with enc := { s.enc with err := k } }
      = .next { t with enc := { t.enc with err := k } }

/-- The first accepted write of a session: the 64 bits of the value, most significant first; `prev` and
`first` are written, the window, the flags and everything else are not. -/
def Obligations.FirstWriteIsSeed : Prop :=
  ∀ (s : State) (w : Word), s.enc.Packed → rejectsWrite w false s.enc = false → s.enc.first = true →
    s.enc.HasRoom s.cfg.outCap 64 →
    ∃ e, exec (.encWrite w) s = .next { s with enc := e } ∧
      e = { s.enc with prev := w, first := false, out := e.out, pend := e.pend, pcnt := e.pcnt } ∧
      s.enc.Appended e (bitsOf w 64)

/-- A write of the previous value emits the one bit 0 and changes nothing else (40_encoder.md R144). -/
def Obligations.RepeatedWriteIsSame : Prop :=
  ∀ (s : State) (w : Word), s.enc.Packed → rejectsWrite w false s.enc = false → s.enc.first = false →
    w ^^^ s.enc.prev = 0#64 → s.enc.HasRoom s.cfg.outCap 1 →
    ∃ e, exec (.encWrite w) s = .next { s with enc := e } ∧
      e = { s.enc with out := e.out, pend := e.pend, pcnt := e.pcnt } ∧
      s.enc.Appended e [false]

/-- A write whose delta fits the window: the bits 1, 0 and the significant bits of the stored window, which
is not written, and no bit of the delta is lost (40_encoder.md R147). -/
def Obligations.FittingWriteReusesWindow : Prop :=
  ∀ (s : State) (w : Word),
    let d := w ^^^ s.enc.prev
    let n := 64 - s.enc.lead.toNat - s.enc.trail.toNat
    s.enc.Packed → rejectsWrite w false s.enc = false → s.enc.first = false → d ≠ 0#64 →
    s.enc.winValid = true → s.enc.lead.toNat ≤ clampLead s.cfg.leadClamp (clz64 d) →
    s.enc.trail.toNat ≤ ctz64 d → s.enc.HasRoom s.cfg.outCap (2 + n) →
    d = (d >>> s.enc.trail.toNat) <<< s.enc.trail.toNat ∧
    ∃ e, exec (.encWrite w) s = .next { s with enc := e } ∧
      e = { s.enc with prev := w, out := e.out, pend := e.pend, pcnt := e.pcnt } ∧
      s.enc.Appended e ([true, false] ++ bitsOf (d >>> s.enc.trail.toNat) n)

/-- A write whose delta does not fit, or that meets no window: the bits 1, 1, the clamped leading count, the
sigbits field and the significant bits, and the window becomes the delta's (40_encoder.md R146). -/
def Obligations.UnfittingWriteSetsWindow : Prop :=
  ∀ (s : State) (w : Word),
    let d := w ^^^ s.enc.prev
    let L := clampLead s.cfg.leadClamp (clz64 d)
    let T := ctz64 d
    let S := 64 - L - T
    s.enc.Packed → rejectsWrite w false s.enc = false → s.enc.first = false → d ≠ 0#64 →
    ¬ (s.enc.winValid = true ∧ s.enc.lead.toNat ≤ L ∧ s.enc.trail.toNat ≤ T) →
    s.enc.HasRoom s.cfg.outCap (13 + S) →
    ∃ e, exec (.encWrite w) s = .next { s with enc := e } ∧
      e = { s.enc with prev := w, winValid := true, lead := BitVec.ofNat 5 L, trail := BitVec.ofNat 6 T,
                       out := e.out, pend := e.pend, pcnt := e.pcnt } ∧
      e.lead.toNat = L ∧ e.trail.toNat = T ∧
      s.enc.Appended e ([true, true] ++ bitsOf (BitVec.ofNat 64 L) 5
        ++ bitsOf (if S = 64 then 0#64 else BitVec.ofNat 64 S) 6 ++ bitsOf (d >>> T) S)

/-- An accepted write faults exactly where its bits do not fit OUT (60_exceptions.md section 1). -/
def Obligations.WriteFaultsWithoutRoom : Prop :=
  ∀ (s : State) (w : Word), s.enc.Inv s.cfg → rejectsWrite w false s.enc = false →
    (exec (.encWrite w) s = .fault .capacityExceeded ↔
      ¬ s.enc.HasRoom s.cfg.outCap (writeBits s.cfg w s.enc).length)

/-- The counts of a nonzero pattern: the bits above the highest one, the bits below the lowest one, and
their sum (00_scope.md section 5). -/
def Obligations.ZeroCountsLocateOuterBits : Prop :=
  ∀ x : Word, x ≠ 0#64 →
    x.getLsbD (63 - clz64 x) = true ∧ (∀ i, 63 - clz64 x < i → x.getLsbD i = false) ∧
    x.getLsbD (ctz64 x) = true ∧ (∀ i, i < ctz64 x → x.getLsbD i = false) ∧
    clz64 x + ctz64 x ≤ 63

/-- The ranges of every field the encoder can produce, for either clamp; so it never emits a malformed NEW
record, and every significant-bit field has 1 to 64 bits (40_encoder.md R161). -/
def Obligations.EncoderFieldRanges : Prop :=
  ∀ (cfg : Config) (d : Word) (e : Enc), d ≠ 0#64 → e.Inv cfg →
    let L := clampLead cfg.leadClamp (clz64 d)
    let T := ctz64 d
    let S := 64 - L - T
    clz64 d + ctz64 d ≤ 63 ∧ L ≤ clz64 d ∧ L ≤ 31 ∧ 1 ≤ S ∧ S ≤ 64 ∧ L + S = 64 - T ∧ L + S ≤ 64 ∧
    (S = 64 ↔ L = 0 ∧ T = 0) ∧
    (cfg.leadClamp = .min → (S = 64 ↔ clz64 d = 0 ∧ T = 0)) ∧
    (cfg.leadClamp = .mask5 → (S = 64 ↔ (clz64 d = 0 ∨ clz64 d = 32) ∧ T = 0)) ∧
    malformedNew (BitVec.ofNat 5 L) (sigField S) = false ∧ sigCount (sigField S) = S ∧
    (reusesWindow L T e = true → 1 ≤ 64 - e.lead.toNat - e.trail.toNat ∧ 64 - e.lead.toNat - e.trail.toNat ≤ 64)

/-- The record the encoder chooses is well-formed, and what a decoder with the same window computes from
it is the value written, however the leading count was clamped (40_encoder.md section 5, 41_decoder.md
section 4). -/
def Obligations.ChosenRecordCarriesValue : Prop :=
  ∀ (cfg : Config) (w : Word) (e : Enc), e.Inv cfg →
    match chosenRecord cfg w e with
    | .same => w = e.prev
    | .reuse m => Record.wf e.window (.reuse m) = true ∧ e.prev ^^^ deltaOf e.window.trail m = w
    | .newWindow lead s6 m => Record.wf e.window (.newWindow lead s6 m) = true ∧
        e.prev ^^^ deltaOf (newRecordWindow lead s6).trail m = w

/-! ## ENC_FLUSH, ENC_BYTES, ENC_RESET -/

/-- A second flush changes nothing (40_encoder.md R151). -/
def Obligations.FlushIsIdempotent : Prop :=
  (∀ s : State, s.enc.finished = true → exec .encFlush s = .next s) ∧
  (∀ s t : State, exec .encFlush s = .next t → exec .encFlush t = .next t)

/-- Flush of an empty session: the buffer is the header and the sentinel's eight bytes, without padding;
with the default parameters it is 10 7F F8 00 00 00 00 00 01 (40_encoder.md R152). -/
def Obligations.FlushOfEmptySession : Prop :=
  ∀ s : State, s.Inv → s.enc.first = true →
    ∃ e, exec .encFlush s = .next { s with enc := e } ∧
      e.out.bytes = headerByte s.cfg.headerId :: bigEndian s.cfg.sentinel ∧ e.out.size = 9 ∧
      s.enc.Appended e (bitsOf s.cfg.sentinel 64) ∧ e.pcnt = 0#3 ∧ e.finished = true ∧
      (s.cfg = Config.default →
        e.out.bytes = [0x10#8, 0x7F#8, 0xF8#8, 0x00#8, 0x00#8, 0x00#8, 0x00#8, 0x00#8, 0x01#8])

/-- The END record is a REUSE or a NEW record, never SAME: the value before it is no NaN (40_encoder.md
R153). -/
def Obligations.EndRecordIsNeverSame : Prop :=
  ∀ s : State, s.Inv → s.enc.finished = false → s.enc.first = false →
    isNaN s.enc.prev = false ∧ s.enc.prev ≠ s.cfg.sentinel ∧ s.cfg.sentinel ^^^ s.enc.prev ≠ 0#64 ∧
    ((∃ m, chosenRecord s.cfg s.cfg.sentinel s.enc = .reuse m) ∨
     (∃ lead s6 m, chosenRecord s.cfg s.cfg.sentinel s.enc = .newWindow lead s6 m))

/-- ENC_FLUSH appends the END record and the padding and finalizes the stream; the window becomes the END
record's where that is a NEW record and is as before otherwise, and no other register changes. It faults exactly
where the bits do not fit, and raises no error (40_encoder.md sections 1 and 2). -/
def Obligations.FlushFinalizesStream : Prop :=
  ∀ s : State, s.enc.Inv s.cfg → s.enc.finished = false →
    let d := s.cfg.sentinel ^^^ s.enc.prev
    let L := clampLead s.cfg.leadClamp (clz64 d)
    let T := ctz64 d
    (s.enc.HasRoom s.cfg.outCap (flushBits s.cfg s.enc).length →
      ∃ e, exec .encFlush s = .next { s with enc := e } ∧
        e = { s.enc with prev := s.cfg.sentinel, first := false, finished := true, winValid := e.winValid,
                         lead := e.lead, trail := e.trail, out := e.out, pend := e.pend, pcnt := e.pcnt } ∧
        s.enc.Appended e (flushBits s.cfg s.enc) ∧ e.pcnt = 0#3 ∧
        (s.enc.first = true ∨ d = 0#64 ∨ reusesWindow L T s.enc = true →
          e.winValid = s.enc.winValid ∧ e.lead = s.enc.lead ∧ e.trail = s.enc.trail) ∧
        (s.enc.first = false → d ≠ 0#64 → reusesWindow L T s.enc = false →
          e.winValid = true ∧ e.lead.toNat = L ∧ e.trail.toNat = T)) ∧
    (¬ s.enc.HasRoom s.cfg.outCap (flushBits s.cfg s.enc).length →
      exec .encFlush s = .fault .capacityExceeded)

/-- ENC_BYTES writes the buffer and the error code on its result lines and no register; the result is the
completed bytes, and under `padded` it holds every bit written so far, filled with zeros to a byte
(40_encoder.md section 3). -/
def Obligations.BytesReturnsStream : Prop :=
  ∀ s : State, s.enc.Packed →
    ∃ obuf, exec .encBytes s = .next { s with res := { s.res with obuf := obuf, oerr := s.enc.err.code } } ∧
      (∀ a, a < s.enc.out.size → obuf[a]? = s.enc.out.read a) ∧
      (s.enc.pcnt = 0#3 → obuf = s.enc.out.bytes) ∧
      (s.cfg.preflushTail = .completeOnly → obuf = s.enc.out.bytes) ∧
      (s.cfg.preflushTail = .padded →
        streamOf obuf = s.enc.bits ++ List.replicate ((8 - s.enc.pcnt.toNat) % 8) false)

/-- ENC_BYTES any number of times: the same result, the stream not finalized, the error not cleared
(40_encoder.md R157). -/
def Obligations.BytesIsRepeatable : Prop :=
  ∀ (s t : State) (n : Nat), exec .encBytes s = .next t →
    runAll (List.replicate n .encBytes) t = .next t ∧ t.enc = s.enc

/-- The reported error is `UNSUPPORTED_VALUE` exactly when some write of the session was rejected,
wherever it stood among the others (40_encoder.md section 3). -/
def Obligations.ReportedErrorTellsOfRejection : Prop :=
  ∀ (s : State) (ws : List Word), s.cfg.outCap = none →
    ∃ t, runAll (.encReset :: (ws.map .encWrite ++ [.encBytes])) s = .next t ∧
      t.res.oerr = if ws.any isNaN then ErrKind.unsupportedValue.code else ErrKind.none.code

/-- ENC_RESET returns every encoder register to its power-on value and changes nothing else; a buffer
returned earlier stays on the result lines (40_encoder.md R158). -/
def Obligations.ResetRestoresPowerOn : Prop :=
  ∀ s : State, exec .encReset s = .next { s with enc := Enc.powerOn s.cfg }

/-! ## DEC_SETBYTES -/

/-- An empty input seeds the session with the sentinel, attaches no stream, succeeds, and the very first
DEC_NEXT terminates (41_decoder.md R181). -/
def Obligations.EmptyInputIsEmptyStream : Prop :=
  ∀ s : State, ∃ t,
    exec (.decSetbytes []) s = .next t ∧
    t = { s with
      dec := { cur := s.cfg.sentinel, lead := 0#5, trail := 0#64, first := true, finished := false,
               err := .none, inp := [], hasStream := false, pos := 0, lim := 0 }
      res := { s.res with ok := true }
      gotValue := false, inputInUse := true } ∧
    exec .decNext t = .next { t with
      dec := { t.dec with first := false, finished := true }, res := { t.res with avail := false }
      inputInUse := false }

/-- An input of 9 bytes or more: the header byte is skipped, the first 64 bits are the seed, the window is
(0, 0), so that a REUSE record would carry 64 bits, and the session is ready (41_decoder.md section 1,
10_state.md section 2). -/
def Obligations.LongInputStartsSession : Prop :=
  ∀ (s : State) (ibuf : List Byte), fitsCap s.cfg.inCap ibuf.length = true → 9 ≤ ibuf.length →
    ∃ v, bitsOf v 64 = (streamOf ibuf).take 64 ∧ windowWidth ⟨0#5, 0#64⟩ = 64 ∧
      exec (.decSetbytes ibuf) s = .next { s with
        dec := { cur := v, lead := 0#5, trail := 0#64, first := true, finished := false, err := .none,
                 inp := Memory.ofBytes ibuf, hasStream := true, pos := 64, lim := 8 * (ibuf.length - 1) }
        res := { s.res with ok := true }
        gotValue := false, inputInUse := true }

/-- An input of 1 to 8 bytes fails: the unit is terminal with `TRUNCATED_STREAM`, its current value is any
value, DEC_NEXT returns 0 and DEC_ERROR reports the error (41_decoder.md section 1). -/
def Obligations.ShortInputFails : Prop :=
  ∀ (s : State) (ibuf : List Byte), fitsCap s.cfg.inCap ibuf.length = true → 1 ≤ ibuf.length →
    ibuf.length ≤ 8 →
    ∃ v t, exec (.decSetbytes ibuf) s = .next t ∧
      t = { s with
        dec := { cur := v, lead := 0#5, trail := 0#64, first := true, finished := false,
                 err := .truncatedStream, inp := Memory.ofBytes ibuf, hasStream := true, pos := 0,
                 lim := 8 * (ibuf.length - 1) }
        res := { s.res with ok := false }
        gotValue := false, inputInUse := true
        freeIdx := s.freeIdx + 1 } ∧
      exec .decNext t = .next { t with res := { t.res with avail := false }, inputInUse := false } ∧
      exec .decError t = .next { t with res := { t.res with rerr := 2#2 } }

/-- DEC_SETBYTES is refused exactly when the input is longer than `P_IN_CAP` (60_exceptions.md sections 1
and 3). -/
def Obligations.SetbytesRefusedOverCapacity : Prop :=
  ∀ (s : State) (ibuf : List Byte),
    (fitsCap s.cfg.inCap ibuf.length = false → exec (.decSetbytes ibuf) s = .refused .inputTooLong) ∧
    (fitsCap s.cfg.inCap ibuf.length = true → ∃ t, exec (.decSetbytes ibuf) s = .next t)

/-- The header byte is not checked: with another byte 0 every DEC_NEXT of the session answers the same and
leaves the same state, but for that byte of IN (41_decoder.md R184). -/
def Obligations.HeaderByteIsIgnored : Prop :=
  ∀ (s : State) (b b' : Byte) (rest : List Byte) (n : Nat),
    fitsCap s.cfg.inCap (rest.length + 1) = true →
    ∃ t, runAll (.decSetbytes (b :: rest) :: List.replicate n .decNext) s = .next t ∧
      runAll (.decSetbytes (b' :: rest) :: List.replicate n .decNext) s
        = .next { t with dec := { t.dec with inp := Memory.ofBytes (b' :: rest) } }

/-! ## DEC_NEXT and the records -/

/-- A terminal unit returns 0 and reads nothing; the first call of a session consumes the seed and reads no
bit: the sentinel ends the stream, any other seed is the first value (41_decoder.md R191). -/
def Obligations.NextChecksTerminalThenSeed : Prop :=
  (∀ s : State, s.dec.err ≠ .none ∨ s.dec.finished = true →
    exec .decNext s = .next { s with res := { s.res with avail := false }, inputInUse := false }) ∧
  (∀ s : State, s.dec.err = .none → s.dec.finished = false → s.dec.first = true →
    exec .decNext s = .next (if s.dec.cur = s.cfg.sentinel
      then { s with dec := { s.dec with first := false, finished := true }
                    res := { s.res with avail := false }, inputInUse := false }
      else { s with dec := { s.dec with first := false }, res := { s.res with avail := true }
                    gotValue := true }))

/-- A control bit 0 at the cursor: the value and the window are unchanged, one bit is consumed and 1 is
returned (41_decoder.md R192). -/
def Obligations.SameRecordKeepsValue : Prop :=
  ∀ (s : State) (post : List Bool), s.dec.Attached → s.dec.err = .none → s.dec.finished = false →
    s.dec.first = false → s.dec.rest = false :: post →
    let t := { s with dec := { s.dec with pos := s.dec.pos + 1 }, res := { s.res with avail := true }
                      gotValue := true }
    exec .decNext s = .next t ∧ exec .same s = .next t ∧ t.dec.rest = post

/-- A REUSE record: `2 + n` bits for the `n` of the window in force, which is not written; the candidate is
the previous value XOR the shifted bits, and the sentinel ends the stream with the value kept
(41_decoder.md section 2). -/
def Obligations.ReuseRecordAppliesDelta : Prop :=
  ∀ (s : State) (m : Word), s.dec.err = .none → s.dec.finished = false → s.dec.first = false →
    s.dec.trail.toNat ≤ 63 →
    let c := s.dec.cur ^^^ (m <<< s.dec.trail.toNat)
    let d := { s.dec with pos := s.dec.pos + (2 + windowWidth s.dec.window) }
    exec (.reuse m) s = .next (if c = s.cfg.sentinel
      then { s with dec := { d with finished := true }, res := { s.res with avail := false }, inputInUse := false }
      else { s with dec := { d with cur := c }, res := { s.res with avail := true }, gotValue := true })

/-- A well-formed NEW record: `13 + S` bits, the window becomes `(L, 64 - L - S)`, and the candidate is
the previous value XOR the bits shifted by the new trailing count (41_decoder.md section 2). -/
def Obligations.NewRecordSetsWindowAndAppliesDelta : Prop :=
  ∀ (s : State) (lead : BitVec 5) (s6 : BitVec 6) (m : Word),
    s.dec.err = .none → s.dec.finished = false → s.dec.first = false →
    let S := if s6 = 0#6 then 64 else s6.toNat
    let T := 64 - lead.toNat - S
    lead.toNat + S ≤ 64 →
    let c := s.dec.cur ^^^ (m <<< T)
    let d := { s.dec with pos := s.dec.pos + (13 + S), lead := lead, trail := BitVec.ofNat 64 T }
    windowWidth d.window = S ∧
    exec (.newWindow lead s6 m) s = .next (if c = s.cfg.sentinel
      then { s with dec := { d with finished := true }, res := { s.res with avail := false }, inputInUse := false }
      else { s with dec := { d with cur := c }, res := { s.res with avail := true }, gotValue := true })

/-- Under `error` a NEW record with `L + S > 64` is an error found once `s6` is read, whatever follows:
13 bits are consumed, neither the window nor the value is written, and the unit is terminal
(41_decoder.md section 2, 60_exceptions.md section 3). -/
def Obligations.MalformedRecordIsError : Prop :=
  ∀ (s : State) (lead : BitVec 5) (s6 : BitVec 6) (post : List Bool), s.dec.Attached →
    s.dec.err = .none → s.dec.finished = false → s.dec.first = false → s.cfg.malformed = .error →
    64 < lead.toNat + sigCount s6 →
    s.dec.rest = [true, true] ++ bitsOf (lead.setWidth 64) 5 ++ bitsOf (s6.setWidth 64) 6 ++ post →
    exec .decNext s = .next { s with
      dec := { s.dec with pos := s.dec.pos + 13, err := .malformedStream }
      res := { s.res with avail := false }, inputInUse := false }

/-- Under `go_wrap` a NEW record with `L + S > 64` wraps the trailing count, carries `S` bits, leaves the
value unchanged and returns 1, and so does every REUSE record under that window (41_decoder.md section
2). -/
def Obligations.MalformedRecordWraps : Prop :=
  ∀ (s : State) (lead : BitVec 5) (s6 : BitVec 6) (m m' : Word), s.dec.err = .none →
    s.dec.finished = false → s.dec.first = false → s.dec.cur ≠ s.cfg.sentinel →
    s.cfg.malformed = .goWrap → 64 < lead.toNat + sigCount s6 →
    ∃ T : Word, T.toNat + lead.toNat + sigCount s6 = 2 ^ 64 + 64 ∧ 2 ^ 64 - 31 ≤ T.toNat ∧
    let t := { s with
      dec := { s.dec with pos := s.dec.pos + (13 + sigCount s6), lead := lead, trail := T }
      res := { s.res with avail := true }, gotValue := true }
    exec (.newWindow lead s6 m) s = .next t ∧ windowWidth t.dec.window = sigCount s6 ∧
    exec (.reuse m') t = .next { t with dec := { t.dec with pos := t.dec.pos + (2 + sigCount s6) } }

/-- A record cut short: DEC_NEXT returns 0 with `TRUNCATED_STREAM`, the value, the flags and the buffer
are as before, the cursor has not passed the end, and the window is as before unless a NEW record was cut. It
holds of every record the policy reads, cut anywhere, and of every NEW record cut before the end of `s6`, whatever
its `L + S` (41_decoder.md section 2, 60_exceptions.md sections 3 and 4). -/
def Obligations.CutRecordTruncates : Prop :=
  ∀ (s : State) (r : Record) (k : Nat), s.dec.Attached → s.dec.err = .none → s.dec.finished = false →
    s.dec.first = false →
    (r.readable s.cfg.malformed s.dec.window = true ∧ k < (encodeRecord s.dec.window r).length) ∨
      (∃ lead s6 m, r = .newWindow lead s6 m ∧ k < 13) →
    s.dec.rest = (encodeRecord s.dec.window r).take k →
    ∃ t, exec .decNext s = .next t ∧ t.dec.err = .truncatedStream ∧ t.res = { s.res with avail := false } ∧
      t.dec.cur = s.dec.cur ∧ t.dec.first = false ∧ t.dec.finished = false ∧ t.dec.inp = s.dec.inp ∧
      t.dec.hasStream = s.dec.hasStream ∧ t.dec.lim = s.dec.lim ∧
      s.dec.pos ≤ t.dec.pos ∧ t.dec.pos ≤ s.dec.lim ∧ t.enc = s.enc ∧ t.cfg = s.cfg ∧
      t.gotValue = s.gotValue ∧ t.inputInUse = false ∧ t.inbox = s.inbox ∧
      ((∀ lead s6 m, r ≠ .newWindow lead s6 m) ∨ k < 2 → t.dec.window = s.dec.window)

/-- Once terminal, DEC reads nothing: any number of DEC_NEXT returns 0 and leaves the decoder as it is
(41_decoder.md section 4, 60_exceptions.md section 1). -/
def Obligations.TerminalDecoderStaysTerminal : Prop :=
  ∀ (s : State) (n : Nat), terminal s.dec = true →
    runAll (List.replicate (n + 1) .decNext) s
      = .next { s with res := { s.res with avail := false }, inputInUse := false }

/-- A NaN other than the sentinel is an ordinary value, as a seed and as a record's candidate: 1 is
returned and DEC_VALUE gives the pattern. -/
def Obligations.OtherNaNsAreOrdinaryValues : Prop :=
  (∀ s : State, s.dec.err = .none → s.dec.finished = false → s.dec.first = true →
    isNaN s.dec.cur = true → s.dec.cur ≠ s.cfg.sentinel →
    ∃ t u, exec .decNext s = .next t ∧ t.res.avail = true ∧ exec .decValue t = .next u ∧
      u.res.rdata = s.dec.cur) ∧
  (∀ (s : State) (r : Record) (post : List Bool) (c : Word), s.dec.Attached → s.dec.err = .none →
    s.dec.finished = false → s.dec.first = false → r.readable s.cfg.malformed s.dec.window = true →
    s.dec.rest = encodeRecord s.dec.window r ++ post →
    (∃ m, r = .reuse m ∧ c = s.dec.cur ^^^ deltaOf s.dec.trail m) ∨
      (∃ lead s6 m, r = .newWindow lead s6 m ∧ c = s.dec.cur ^^^ deltaOf (newRecordWindow lead s6).trail m) →
    isNaN c = true → c ≠ s.cfg.sentinel →
    ∃ t u, exec .decNext s = .next t ∧ t.res.avail = true ∧ exec .decValue t = .next u ∧ u.res.rdata = c)

/-! ## DEC_VALUE, DEC_ERROR, HEADER, SEED -/

/-- DEC_VALUE after a 1 of the session returns the current value and writes no register. -/
def Obligations.ValueReadsCurrent : Prop :=
  ∀ s : State, s.gotValue = true →
    exec .decValue s = .next { s with res := { s.res with rdata := s.dec.cur } }

/-- DEC_VALUE before the first 1 of the session returns some value, which nothing says, and writes no
register (41_decoder.md section 3; the free value is the model's form, log entry 5). -/
def Obligations.ValueBeforeFirstIsFree : Prop :=
  ∀ s : State, s.gotValue = false →
    ∃ v, exec .decValue s = .next { s with res := { s.res with rdata := v }, freeIdx := s.freeIdx + 1 }

/-- DEC_ERROR returns the error's code and writes no register; the end of the stream is no error
(41_decoder.md R202). -/
def Obligations.ErrorReadsCode : Prop :=
  (∀ s : State, exec .decError s = .next { s with res := { s.res with rerr := s.dec.err.code } }) ∧
  (ErrKind.none.code = 0#2 ∧ ErrKind.unsupportedValue.code = 1#2 ∧ ErrKind.truncatedStream.code = 2#2 ∧
    ErrKind.malformedStream.code = 3#2) ∧
  (∀ s t : State, exec .decNext s = .next t → s.dec.finished = false → t.dec.finished = true →
    t.dec.err = .none)

/-- HEADER attaches the bytes after it as the stream, whatever its own value, and SEED is the session's
current value (41_decoder.md section 1). Executing HEADER and SEED alone is the model's choice (log entry 11),
and so is that SEED sets the cursor to 64 from any position (log entry 17). -/
def Obligations.HeaderAndSeedStartStream : Prop :=
  (∀ (s : State) (b : Byte), 1 ≤ s.dec.inp.size →
    exec (.header b) s = .next { s with
      dec := { s.dec with hasStream := true, lim := 8 * (s.dec.inp.size - 1), pos := 0 } }) ∧
  (∀ (s : State) (v : Word),
    exec (.seed v) s = .next { s with
      dec := { s.dec with cur := v, lead := 0#5, trail := 0#64, first := true, finished := false,
                          err := .none, pos := 64 }
      res := { s.res with ok := true }
      gotValue := false, inputInUse := true })

/-! ## Layout of the two address spaces -/

/-- Bit `p` of either stream is bit `7 - p mod 8` of byte `1 + p div 8` of its buffer. -/
def Obligations.StreamBitsStandMsbFirst : Prop :=
  (∀ (e : Enc) (p : Nat), e.Packed → p < 8 * (e.out.size - 1) →
    e.bits[p]? = (e.out.read (1 + p / 8)).map fun b => b.getLsbD (7 - p % 8)) ∧
  (∀ (d : Dec) (p : Nat), d.Attached → d.pos + p < d.lim →
    d.rest[p]? = (d.inp.read (1 + (d.pos + p) / 8)).map fun b => b.getLsbD (7 - (d.pos + p) % 8))

/-- OUT only grows: no instruction but ENC_RESET changes a byte that stands there (20_memory.md
section 1). -/
def Obligations.OutOnlyGrows : Prop :=
  ∀ (i : Instr) (s t : State), s.enc.Packed → i ≠ .encReset → exec i s = .next t →
    s.enc.out.size ≤ t.enc.out.size ∧ ∀ a, a < s.enc.out.size → t.enc.out.read a = s.enc.out.read a

/-- IN is written by DEC_SETBYTES alone, which makes it exactly the input (20_memory.md section 1). -/
def Obligations.InIsWrittenBySetbytesAlone : Prop :=
  (∀ (i : Instr) (s t : State), (∀ ibuf, i ≠ .decSetbytes ibuf) → exec i s = .next t →
    t.dec.inp = s.dec.inp) ∧
  (∀ (ibuf : List Byte) (s t : State), exec (.decSetbytes ibuf) s = .next t →
    t.dec.inp.bytes = ibuf ∧ t.dec.inp.wf = true)

/-! ## Errors, faults, units -/

/-- What clears the sticky errors: ENC_RESET alone the encoder's, a successful DEC_SETBYTES alone the
decoder's, and a failed one leaves `TRUNCATED_STREAM` (60_exceptions.md R239). -/
def Obligations.ErrorsAreClearedOnlyByRestart : Prop :=
  (∀ (i : Instr) (s t : State), onEncPort i = true ∨ onDecPort i = true → exec i s = .next t →
    (s.enc.err ≠ .none → t.enc.err = .none → i = .encReset) ∧
    (s.dec.err ≠ .none → t.dec.err = .none → ∃ ibuf, i = .decSetbytes ibuf ∧ t.res.ok = true)) ∧
  (∀ s t : State, exec .encReset s = .next t → t.enc.err = .none) ∧
  (∀ (ibuf : List Byte) (s t : State), exec (.decSetbytes ibuf) s = .next t →
    (t.res.ok = true → t.dec.err = .none) ∧ (t.res.ok = false → t.dec.err = .truncatedStream))

/-- Errors do not nest: a second rejected write changes nothing at all, and a decoder in error raises no
second one (60_exceptions.md R240). -/
def Obligations.ErrorsDoNotNest : Prop :=
  (∀ (s : State) (w : Word), s.enc.err = .unsupportedValue → isNaN w = true → s.enc.finished = false →
    exec (.encWrite w) s = .next s) ∧
  (∀ s : State, s.dec.err ≠ .none →
    exec .decNext s = .next { s with res := { s.res with avail := false }, inputInUse := false })

/-- The one fault is CapacityExceeded, raised by ENC_WRITE and ENC_FLUSH alone, and never where `P_OUT_CAP`
is unbounded (60_exceptions.md section 1). -/
def Obligations.FaultsOnlyAtOutputCapacity : Prop :=
  ∀ (i : Instr) (s : State) (r : Fault), exec i s = .fault r →
    ((∃ w, i = .encWrite w) ∨ i = .encFlush) ∧ ∃ c, s.cfg.outCap = some c

/-- A step is refused exactly for a host protocol violation: two commands at once on one unit, a DEC_SETBYTES
whose input is longer than `P_IN_CAP`, or a change of an input buffer read in place, from the DEC_SETBYTES that
was given it until the first DEC_NEXT that returns 0 (60_exceptions.md section 1, 70_reset_and_hazards.md sections
3 and 5). The events are the model's form (log entry 2), and so are `inPlace` and `inputInUse` (log entry 8). -/
def Obligations.StepRefusesOnlyProtocolViolations : Prop :=
  (∀ (s : State) (r : Refusal), step s = .refused r ↔
    (r = .concurrentCommands ∧ ∃ p q rest, s.inbox = .together p q :: rest ∧ p.unit = q.unit) ∨
    (r = .inputTooLong ∧ ∃ ibuf cap rest,
      (s.inbox = .command (.dec 0b00#2 ibuf) :: rest ∨
        ∃ q, q.unit = .enc ∧ s.inbox = .together (.dec 0b00#2 ibuf) q :: rest) ∧
      s.cfg.inCap = some cap ∧ cap < ibuf.length) ∨
    (r = .inputChanged ∧ s.cfg.inPlace = true ∧ s.inputInUse = true ∧ ∃ rest, s.inbox = .changeInput :: rest)) ∧
  (∀ (ibuf : List Byte) (s t : State), exec (.decSetbytes ibuf) s = .next t → t.inputInUse = true) ∧
  (∀ s t : State, exec .decNext s = .next t → t.inputInUse = (t.res.avail && s.inputInUse)) ∧
  (∀ (i : Instr) (s t : State), onEncPort i = true ∨ i = .decValue ∨ i = .decError → exec i s = .next t →
    t.inputInUse = s.inputInUse)

/-- A command of one unit changes no register of the other and none of the other's results, and the
configuration never changes (20_memory.md section 5, 70_reset_and_hazards.md section 1). -/
def Obligations.CommandsChangeTheirUnitAlone : Prop :=
  ∀ (i : Instr) (s t : State), exec i s = .next t →
    t.cfg = s.cfg ∧ t.inbox = s.inbox ∧
    (onEncPort i = true → t.dec = s.dec ∧ t.gotValue = s.gotValue ∧ t.inputInUse = s.inputInUse ∧
      t.freeIdx = s.freeIdx ∧
      t.res = { s.res with obuf := t.res.obuf, oerr := t.res.oerr }) ∧
    (onEncPort i = false → t.enc = s.enc ∧ t.res.obuf = s.res.obuf ∧ t.res.oerr = s.res.oerr)

/-- Commands on the two units commute: neither observes the other (20_memory.md section 5). -/
def Obligations.UnitsDoNotObserveEachOther : Prop :=
  ∀ (i j : Instr) (s s1 s2 : State), onEncPort i = true → onEncPort j = false →
    exec i s = .next s1 → exec j s = .next s2 →
    ∃ t, exec j s1 = .next t ∧ exec i s2 = .next t

/-! ## Power-on and the invariant -/

/-- The encoder at power-on, for every configuration. -/
def Obligations.EncoderPowerOnState : Prop :=
  ∀ cfg : Config,
    (State.powerOn cfg).enc =
      { prev := 0#64, winValid := false, lead := 0#5, trail := 0#6, first := true, finished := false,
        err := .none, out := [(0, cfg.headerId ++ 0#4)], pend := 0#8, pcnt := 0#3 } ∧
    ∀ s : State, s.cfg = cfg → ∃ t, exec .encReset s = .next t ∧ t.enc = (State.powerOn cfg).enc

/-- The decoder at power-on, for every configuration, is the decoder after DEC_SETBYTES of an empty buffer; a
DEC_NEXT before any DEC_SETBYTES returns 0 and sets `finished` (10_state.md R34). -/
def Obligations.DecoderPowerOnState : Prop :=
  ∀ cfg : Config,
    (State.powerOn cfg).dec =
      { cur := cfg.sentinel, lead := 0#5, trail := 0#64, first := true, finished := false, err := .none,
        inp := [], hasStream := false, pos := 0, lim := 0 } ∧
    (∀ s : State, s.cfg = cfg →
      ∃ u, exec (.decSetbytes []) s = .next u ∧ u.dec = (State.powerOn cfg).dec) ∧
    ∃ t, exec .decNext (State.powerOn cfg) = .next t ∧ t.res.avail = false ∧ t.dec.finished = true

/-- Every machine of a legal configuration meets the invariant at power-on, the reset state among them; that
`gotValue` and `inputInUse` are false there is the model's choice (log entries 5, 8). -/
def Obligations.PowerOnMeetsInvariant : Prop :=
  (∀ cfg : Config, cfg.wf = true → (State.powerOn cfg).Inv) ∧ State.reset.Inv

/-- Every step keeps the invariant: the memories stay canonical, the header byte stands, the windows, flags
and errors stay legal, the cursor stays within the stream (10_state.md sections 1 and 2). -/
def Obligations.StepKeepsInvariant : Prop :=
  ∀ s t : State, s.Inv → step s = .next t → t.Inv

/-- The round trip: any sequence of non-NaN patterns, encoded in a fresh session, flushed and read out,
decodes to exactly that sequence and then ends with no error, for every legal configuration without capacity
bounds (41_decoder.md R206). -/
def Obligations.EncodedSequenceDecodesExactly : Prop :=
  ∀ (s : State) (vs : List Word), s.cfg.wf = true → s.cfg.outCap = none → s.cfg.inCap = none →
    (∀ v ∈ vs, isNaN v = false) →
    ∃ t u, runAll (.encReset :: (vs.map .encWrite ++ [.encFlush, .encBytes])) s = .next t ∧
      t.res.oerr = 0#2 ∧ exec (.decSetbytes t.res.obuf) t = .next u ∧ u.res.ok = true ∧ DecodesTo vs u
end

