-- ==== Sys2Proof/Laws/Bits.lean ====
section
/-! SUPPORT. Lemmas about bit strings and the words they spell. -/

namespace Sys2Proof.Machine

@[simp] theorem bitsOf_zero (v : Word) : bitsOf v 0 = [] := rfl

@[simp] theorem bitsOf_succ (v : Word) (n : Nat) : bitsOf v (n + 1) = v.getLsbD n :: bitsOf v n := rfl

@[simp] theorem bitsOf_length (v : Word) (n : Nat) : (bitsOf v n).length = n := by
  induction n with
  | zero => rfl
  | succ n ih => simp [ih]

theorem bitsOf_getElem? (v : Word) (n i : Nat) :
    (bitsOf v n)[i]? = if i < n then some (v.getLsbD (n - 1 - i)) else none := by
  induction n generalizing i with
  | zero => simp
  | succ n ih =>
    cases i with
    | zero => simp
    | succ i => simp only [bitsOf_succ, List.getElem?_cons_succ, ih, Nat.add_lt_add_iff_right]
                congr 3; omega

/-- Only the low `n` bits matter. -/
theorem bitsOf_congr {v w : Word} {n : Nat} (h : ∀ i, i < n → v.getLsbD i = w.getLsbD i) :
    bitsOf v n = bitsOf w n := by
  induction n with
  | zero => rfl
  | succ n ih => rw [bitsOf_succ, bitsOf_succ, h n (by omega), ih fun i hi => h i (by omega)]

theorem shiftIn_getLsbD (r : Word) (b : Bool) (i : Nat) :
    (shiftIn r b).getLsbD i = (decide (i < 64) && if i = 0 then b else r.getLsbD (i - 1)) := by
  have h1 : ∀ j, (if b then 1#64 else 0#64).getLsbD j = (b && decide (j = 0)) := by
    intro j; cases b <;> cases j <;> simp
  rw [shiftIn, BitVec.getLsbD_or, BitVec.getLsbD_shiftLeft, h1]
  cases i with
  | zero => simp
  | succ i => simp

@[simp] theorem wordOf_nil : wordOf [] = 0#64 := rfl

@[simp] theorem wordOf_append_singleton (bs : List Bool) (b : Bool) :
    wordOf (bs ++ [b]) = shiftIn (wordOf bs) b := by
  simp [wordOf]

/-- The last bit read is bit 0. -/
theorem wordOf_getLsbD (bs : List Bool) (i : Nat) :
    (wordOf bs).getLsbD i = (decide (i < 64) && (bs.reverse[i]?).getD false) := by
  induction bs using List.reverseRecOn generalizing i with
  | nil => simp
  | append_singleton bs b ih =>
    rw [wordOf_append_singleton, shiftIn_getLsbD, List.reverse_append]
    cases i with
    | zero => simp
    | succ i => by_cases h : i + 1 < 64 <;> simp [ih, h]; omega

theorem wordOf_lt (bs : List Bool) : (wordOf bs).toNat < 2 ^ bs.length := by
  apply Nat.lt_pow_two_of_testBit
  intro i hi
  rw [BitVec.testBit_toNat, wordOf_getLsbD, List.getElem?_eq_none (by simpa using hi)]
  simp

theorem getLsbD_of_lt_pow {v : Word} {n i : Nat} (h : v.toNat < 2 ^ n) (hi : n ≤ i) :
    v.getLsbD i = false := by
  rw [← BitVec.testBit_toNat]
  exact Nat.testBit_lt_two_pow (Nat.lt_of_lt_of_le h (Nat.pow_le_pow_right (by decide) hi))

theorem bitsOf_reverse_getElem? (v : Word) (n i : Nat) :
    (bitsOf v n).reverse[i]? = if i < n then some (v.getLsbD i) else none := by
  by_cases h : i < n
  · rw [List.getElem?_reverse (by simpa using h), bitsOf_getElem?, bitsOf_length, if_pos (by omega), if_pos h]
    congr 2; omega
  · rw [if_neg h, List.getElem?_eq_none (by simpa using h)]

/-- Reading back the bits of a value that fits. -/
theorem wordOf_bitsOf {v : Word} {n : Nat} (h : v.toNat < 2 ^ n) : wordOf (bitsOf v n) = v := by
  apply BitVec.eq_of_getLsbD_eq
  intro i hi
  rw [wordOf_getLsbD, bitsOf_reverse_getElem?]
  by_cases hn : i < n
  · simp [hn, hi]
  · simp [hn, getLsbD_of_lt_pow h (Nat.le_of_not_lt hn)]

/-- Writing the value of a bit string of at most 64 bits gives the string back. -/
theorem bitsOf_wordOf (bs : List Bool) (h : bs.length ≤ 64) : bitsOf (wordOf bs) bs.length = bs := by
  apply List.ext_getElem?
  intro i
  rw [bitsOf_getElem?]
  by_cases hi : i < bs.length
  · have h2 : bs.length - 1 - (bs.length - 1 - i) = i := by omega
    rw [if_pos hi, wordOf_getLsbD, List.getElem?_reverse (by omega), h2]
    simp [hi]; omega
  · rw [if_neg hi, List.getElem?_eq_none (by omega)]

end Sys2Proof.Machine
end

