-- ==== Sys2Proof/Laws/Records.lean ====
section
/-! SUPPORT. Lemmas about reading bit strings and about the arithmetic of records: field values, widths,
counts and the delta. -/

namespace Sys2Proof.Machine

theorem bitsGet_append (pre mid post : List Bool) :
    bitsGet (pre ++ (mid ++ post)) pre.length mid.length = some (wordOf mid) := by
  simp [bitsGet]

/-- Reading a field that stands at a position gives its value, where it fits. -/
theorem bitsGet_field {bits pre post : List Bool} {v : Word} {p n : Nat}
    (hb : bits = pre ++ (bitsOf v n ++ post)) (hp : p = pre.length) (hv : v.toNat < 2 ^ n) :
    bitsGet bits p n = some v := by
  have h := bitsGet_append pre (bitsOf v n) post
  rw [bitsOf_length, wordOf_bitsOf hv] at h
  rw [hb, hp]; exact h

theorem bitsGet_none {bits : List Bool} {p n : Nat} (h : bits.length < p + n) : bitsGet bits p n = none := by
  rw [bitsGet, if_neg (by omega)]

theorem bitsGet_some {bits : List Bool} {p n : Nat} {v : Word} (h : bitsGet bits p n = some v) :
    p + n ≤ bits.length ∧ v = wordOf ((bits.drop p).take n) := by
  unfold bitsGet at h
  split at h
  · rename_i hp; exact ⟨hp, (Option.some.inj h).symm⟩
  · cases h

/-- A field's value fits its width. -/
theorem bitsGet_lt {bits : List Bool} {p n : Nat} {v : Word} (h : bitsGet bits p n = some v) :
    v.toNat < 2 ^ n := by
  obtain ⟨_, rfl⟩ := bitsGet_some h
  exact Nat.lt_of_lt_of_le (wordOf_lt _) (Nat.pow_le_pow_right (by decide) (by simp))

/-- A field that was read stands there, bit for bit. -/
theorem bitsGet_inv {bits : List Bool} {p n : Nat} {v : Word} (hn : n ≤ 64) (h : bitsGet bits p n = some v) :
    bits.drop p = bitsOf v n ++ bits.drop (p + n) := by
  obtain ⟨h1, rfl⟩ := bitsGet_some h
  have h2 : ((bits.drop p).take n).length = n := by simp; omega
  have h3 := bitsOf_wordOf ((bits.drop p).take n) (by omega)
  rw [h2] at h3
  rw [h3, ← List.drop_drop]
  exact (List.take_append_drop _ _).symm

/-- Reading one bit that stands at a position. -/
theorem bitsGet_bit {bits pre post : List Bool} {b : Bool} {p : Nat} (hb : bits = pre ++ (b :: post))
    (hp : p = pre.length) : bitsGet bits p 1 = some (if b then 1#64 else 0#64) := by
  apply bitsGet_field (pre := pre) (post := post) _ hp
  · cases b <;> decide
  · rw [hb]; cases b <;> rfl

/-- What a longer string has where a prefix can be read. -/
theorem bitsGet_take {bits : List Bool} {k p n : Nat} {v : Word} (h : bitsGet (bits.take k) p n = some v) :
    bitsGet bits p n = some v := by
  obtain ⟨h1, h2⟩ := bitsGet_some h
  simp only [List.length_take] at h1
  rw [bitsGet, if_pos (by omega), h2, List.drop_take, List.take_take, Nat.min_eq_left (by omega)]

/-- A 5-bit field survives the 64-bit reader. -/
theorem lead_roundTrip (l : BitVec 5) : (l.setWidth 64).toNat < 2 ^ 5 ∧ (l.setWidth 64).setWidth 5 = l := by
  have h := l.isLt
  refine ⟨by rw [BitVec.toNat_setWidth]; omega, BitVec.eq_of_toNat_eq ?_⟩
  simp only [BitVec.toNat_setWidth]; omega

/-- A 6-bit field survives the 64-bit reader. -/
theorem sig_roundTrip (s : BitVec 6) : (s.setWidth 64).toNat < 2 ^ 6 ∧ (s.setWidth 64).setWidth 6 = s := by
  have h := s.isLt
  refine ⟨by rw [BitVec.toNat_setWidth]; omega, BitVec.eq_of_toNat_eq ?_⟩
  simp only [BitVec.toNat_setWidth]; omega

theorem sigCount_pos (s6 : BitVec 6) : 1 ≤ sigCount s6 := by
  unfold sigCount; split
  · decide
  · rename_i h
    have : s6.toNat ≠ 0 := fun hh => h (BitVec.eq_of_toNat_eq (by simpa using hh))
    omega

theorem sigCount_le (s6 : BitVec 6) : sigCount s6 ≤ 64 := by
  unfold sigCount; split
  · decide
  · have := s6.isLt; omega

/-- The sigbits field stands for every count from 1 to 64 (30_encoding.md R108). -/
theorem sigCount_sigField {S : Nat} (h1 : 1 ≤ S) (h2 : S ≤ 64) : sigCount (sigField S) = S := by
  unfold sigField
  split
  · rename_i h; subst h; decide
  · rename_i h
    have h3 : (BitVec.ofNat 6 S).toNat = S := by rw [BitVec.toNat_ofNat]; omega
    unfold sigCount
    rw [if_neg (fun hh => by rw [hh] at h3; simp at h3; omega), h3]

theorem newRecordWindow_trail (lead : BitVec 5) (s6 : BitVec 6) :
    (newRecordWindow lead s6).trail.toNat
      = if lead.toNat + sigCount s6 ≤ 64 then 64 - lead.toNat - sigCount s6
        else 2 ^ 64 + 64 - lead.toNat - sigCount s6 := by
  have h1 := lead.isLt
  have h2 := sigCount_le s6
  simp only [newRecordWindow, BitVec.toNat_sub, BitVec.toNat_setWidth, BitVec.toNat_ofNat]
  split <;> omega

/-- A NEW record's window carries the record's own count, well-formed or not (41_decoder.md R196,
R200). -/
theorem windowWidth_new (lead : BitVec 5) (s6 : BitVec 6) :
    windowWidth (newRecordWindow lead s6) = sigCount s6 := by
  have h1 := lead.isLt
  have h2 := sigCount_le s6
  simp only [windowWidth, newRecordWindow, BitVec.toNat_sub, BitVec.toNat_setWidth, BitVec.toNat_ofNat]
  omega

/-- The width of a window of legal counts is what is left of 64 bits. -/
theorem windowWidth_legal {W : Window} (h : W.lead.toNat + W.trail.toNat ≤ 64) :
    windowWidth W = 64 - W.lead.toNat - W.trail.toNat := by
  have h1 := W.lead.isLt
  have h2 := W.trail.isLt
  simp only [windowWidth, BitVec.toNat_sub, BitVec.toNat_setWidth, BitVec.toNat_ofNat]
  omega

/-! ## Leading and trailing zero counts (00_scope.md R9) -/

theorem clzFrom_le (x : Word) (k : Nat) : clzFrom x k ≤ k := by
  induction k with
  | zero => simp [clzFrom]
  | succ k ih => unfold clzFrom; split <;> omega

theorem clzFrom_zero_above (x : Word) (k i : Nat) (h1 : k - clzFrom x k ≤ i) (h2 : i < k) :
    x.getLsbD i = false := by
  induction k with
  | zero => omega
  | succ k ih =>
    unfold clzFrom at h1
    split at h1
    · omega
    · rename_i hk
      rcases Nat.lt_or_ge i k with h | h
      · exact ih (by omega) h
      · have : i = k := by omega
        subst this; simpa using hk

theorem clzFrom_one (x : Word) (k : Nat) (h : clzFrom x k < k) : x.getLsbD (k - 1 - clzFrom x k) = true := by
  induction k with
  | zero => omega
  | succ k ih =>
    unfold clzFrom at h ⊢
    split
    · rename_i hk; simpa using hk
    · rename_i hk
      rw [if_neg hk] at h
      have := ih (by omega)
      rwa [show k + 1 - 1 - (clzFrom x k + 1) = k - 1 - clzFrom x k by omega]

theorem ctzFrom_le (x : Word) (k : Nat) : ctzFrom x k ≤ k := by
  induction k with
  | zero => simp [ctzFrom]
  | succ k ih => unfold ctzFrom; split <;> omega

theorem ctzFrom_zero_below (x : Word) (k i : Nat) (hk : k ≤ 64) (h1 : 64 - k ≤ i) (h2 : i < 64 - k + ctzFrom x k) :
    x.getLsbD i = false := by
  induction k with
  | zero => simp [ctzFrom] at h2; omega
  | succ k ih =>
    unfold ctzFrom at h2
    split at h2
    · omega
    · rename_i hb
      rcases Nat.eq_or_lt_of_le h1 with h | h
      · rw [show i = 63 - k by omega]; simpa using hb
      · exact ih (by omega) (by omega) (by omega)

theorem ctzFrom_one (x : Word) (k : Nat) (hk : k ≤ 64) (h : ctzFrom x k < k) :
    x.getLsbD (64 - k + ctzFrom x k) = true := by
  induction k with
  | zero => omega
  | succ k ih =>
    unfold ctzFrom at h ⊢
    split
    · rename_i hb; rwa [show 64 - (k + 1) + 0 = 63 - k by omega]
    · rename_i hb
      rw [if_neg hb] at h
      have := ih (by omega) (by omega)
      rwa [show 64 - (k + 1) + (ctzFrom x k + 1) = 64 - k + ctzFrom x k by omega]

theorem exists_bit_of_ne_zero {x : Word} (h : x ≠ 0#64) : ∃ i, i < 64 ∧ x.getLsbD i = true := by
  by_contra hc
  apply h
  apply BitVec.eq_of_getLsbD_eq
  intro i hi
  have : ¬ x.getLsbD i = true := fun hb => hc ⟨i, hi, hb⟩
  simpa using this

theorem clz64_zero_above (x : Word) (i : Nat) (h : 64 - clz64 x ≤ i) : x.getLsbD i = false := by
  rcases Nat.lt_or_ge i 64 with hi | hi
  · exact clzFrom_zero_above x 64 i h hi
  · exact BitVec.getLsbD_of_ge x i hi

theorem ctz64_zero_below (x : Word) (i : Nat) (h : i < ctz64 x) : x.getLsbD i = false :=
  ctzFrom_zero_below x 64 i (by decide) (by omega) (by unfold ctz64 at h; omega)

theorem clz64_lt {x : Word} (h : x ≠ 0#64) : clz64 x < 64 := by
  obtain ⟨i, hi, hb⟩ := exists_bit_of_ne_zero h
  have h1 := clzFrom_le x 64
  rcases Nat.lt_or_ge (clz64 x) 64 with h2 | h2
  · exact h2
  · rw [clz64_zero_above x i (by omega)] at hb; cases hb

theorem ctz64_lt {x : Word} (h : x ≠ 0#64) : ctz64 x < 64 := by
  obtain ⟨i, hi, hb⟩ := exists_bit_of_ne_zero h
  rcases Nat.lt_or_ge (ctz64 x) 64 with h2 | h2
  · exact h2
  · rw [ctz64_zero_below x i (by omega)] at hb; cases hb

theorem clz64_one {x : Word} (h : x ≠ 0#64) : x.getLsbD (63 - clz64 x) = true :=
  clzFrom_one x 64 (clz64_lt h)

theorem ctz64_one {x : Word} (h : x ≠ 0#64) : x.getLsbD (ctz64 x) = true := by
  have := ctzFrom_one x 64 (by decide) (ctz64_lt h)
  simpa [ctz64] using this

theorem clz64_add_ctz64 {x : Word} (h : x ≠ 0#64) : clz64 x + ctz64 x ≤ 63 := by
  rcases Nat.lt_or_ge 63 (clz64 x + ctz64 x) with h1 | h1
  · have h2 := clz64_one h
    have h3 := clz64_lt h
    rw [ctz64_zero_below x (63 - clz64 x) (by omega)] at h2
    cases h2
  · exact h1

theorem clampLead_le (p : LeadClamp) (x : Nat) : clampLead p x ≤ x ∧ clampLead p x ≤ 31 := by
  cases p with
  | min => exact ⟨Nat.min_le_left _ _, Nat.min_le_right _ _⟩
  | mask5 => exact ⟨Nat.and_le_left, Nat.and_le_right⟩

/-! ## The delta (30_encoding.md R109) -/

/-- A delta whose low bits are zero is recovered from its shifted bits (40_encoder.md R147). -/
theorem deltaOf_shift {d : Word} {T : Nat} {t : Word} (ht : t.toNat = T) (hT : T ≤ 63)
    (h : ∀ i, i < T → d.getLsbD i = false) : deltaOf t (d >>> T) = d := by
  unfold deltaOf
  rw [ht, if_pos hT]
  apply BitVec.eq_of_getLsbD_eq
  intro i hi
  rw [BitVec.getLsbD_shiftLeft, BitVec.getLsbD_ushiftRight]
  rcases Nat.lt_or_ge i T with h1 | h1
  · simp [h1, h i h1]
  · have h2 : ¬ i < T := by omega
    have h3 : T + (i - T) = i := by omega
    simp [hi, h2, h3]

/-- The shifted bits of a delta with `L` leading zeros fit the window. -/
theorem shift_lt {d : Word} {T L : Nat} (hL : L + T ≤ 64) (h : ∀ i, 64 - L ≤ i → d.getLsbD i = false) :
    (d >>> T).toNat < 2 ^ (64 - L - T) := by
  apply Nat.lt_pow_two_of_testBit
  intro i hi
  rw [BitVec.testBit_toNat, BitVec.getLsbD_ushiftRight, h _ (by omega)]

end Sys2Proof.Machine
end

