-- ==== Sys2Proof/Laws/State.lean ====
section
/-! SUPPORT. One lemma per field for every update of the state, so that no later proof unfolds a record
update. -/

namespace Sys2Proof.Machine

/-! ### advance -/

@[simp] theorem advance_cfg (n : Nat) (s : State) : (advance n s).cfg = s.cfg := rfl
@[simp] theorem advance_enc (n : Nat) (s : State) : (advance n s).enc = s.enc := rfl
@[simp] theorem advance_dec_cur (n : Nat) (s : State) : (advance n s).dec.cur = s.dec.cur := rfl
@[simp] theorem advance_dec_lead (n : Nat) (s : State) : (advance n s).dec.lead = s.dec.lead := rfl
@[simp] theorem advance_dec_trail (n : Nat) (s : State) : (advance n s).dec.trail = s.dec.trail := rfl
@[simp] theorem advance_dec_first (n : Nat) (s : State) : (advance n s).dec.first = s.dec.first := rfl
@[simp] theorem advance_dec_finished (n : Nat) (s : State) : (advance n s).dec.finished = s.dec.finished := rfl
@[simp] theorem advance_dec_err (n : Nat) (s : State) : (advance n s).dec.err = s.dec.err := rfl
@[simp] theorem advance_dec_inp (n : Nat) (s : State) : (advance n s).dec.inp = s.dec.inp := rfl
@[simp] theorem advance_dec_hasStream (n : Nat) (s : State) : (advance n s).dec.hasStream = s.dec.hasStream := rfl
@[simp] theorem advance_dec_pos (n : Nat) (s : State) : (advance n s).dec.pos = s.dec.pos + n := rfl
@[simp] theorem advance_dec_lim (n : Nat) (s : State) : (advance n s).dec.lim = s.dec.lim := rfl
@[simp] theorem advance_res (n : Nat) (s : State) : (advance n s).res = s.res := rfl
@[simp] theorem advance_gotValue (n : Nat) (s : State) : (advance n s).gotValue = s.gotValue := rfl
@[simp] theorem advance_inputInUse (n : Nat) (s : State) : (advance n s).inputInUse = s.inputInUse := rfl
@[simp] theorem advance_inbox (n : Nat) (s : State) : (advance n s).inbox = s.inbox := rfl
@[simp] theorem advance_freeIdx (n : Nat) (s : State) : (advance n s).freeIdx = s.freeIdx := rfl

/-! ### returnValue -/

@[simp] theorem returnValue_cfg (s : State) : (returnValue s).cfg = s.cfg := rfl
@[simp] theorem returnValue_enc (s : State) : (returnValue s).enc = s.enc := rfl
@[simp] theorem returnValue_dec (s : State) : (returnValue s).dec = s.dec := rfl
@[simp] theorem returnValue_res_obuf (s : State) : (returnValue s).res.obuf = s.res.obuf := rfl
@[simp] theorem returnValue_res_oerr (s : State) : (returnValue s).res.oerr = s.res.oerr := rfl
@[simp] theorem returnValue_res_ok (s : State) : (returnValue s).res.ok = s.res.ok := rfl
@[simp] theorem returnValue_res_avail (s : State) : (returnValue s).res.avail = true := rfl
@[simp] theorem returnValue_res_rdata (s : State) : (returnValue s).res.rdata = s.res.rdata := rfl
@[simp] theorem returnValue_res_rerr (s : State) : (returnValue s).res.rerr = s.res.rerr := rfl
@[simp] theorem returnValue_gotValue (s : State) : (returnValue s).gotValue = true := rfl
@[simp] theorem returnValue_inputInUse (s : State) : (returnValue s).inputInUse = s.inputInUse := rfl
@[simp] theorem returnValue_inbox (s : State) : (returnValue s).inbox = s.inbox := rfl
@[simp] theorem returnValue_freeIdx (s : State) : (returnValue s).freeIdx = s.freeIdx := rfl

/-! ### returnNone -/

@[simp] theorem returnNone_cfg (s : State) : (returnNone s).cfg = s.cfg := rfl
@[simp] theorem returnNone_enc (s : State) : (returnNone s).enc = s.enc := rfl
@[simp] theorem returnNone_dec (s : State) : (returnNone s).dec = s.dec := rfl
@[simp] theorem returnNone_res_obuf (s : State) : (returnNone s).res.obuf = s.res.obuf := rfl
@[simp] theorem returnNone_res_oerr (s : State) : (returnNone s).res.oerr = s.res.oerr := rfl
@[simp] theorem returnNone_res_ok (s : State) : (returnNone s).res.ok = s.res.ok := rfl
@[simp] theorem returnNone_res_avail (s : State) : (returnNone s).res.avail = false := rfl
@[simp] theorem returnNone_res_rdata (s : State) : (returnNone s).res.rdata = s.res.rdata := rfl
@[simp] theorem returnNone_res_rerr (s : State) : (returnNone s).res.rerr = s.res.rerr := rfl
@[simp] theorem returnNone_gotValue (s : State) : (returnNone s).gotValue = s.gotValue := rfl
@[simp] theorem returnNone_inputInUse (s : State) : (returnNone s).inputInUse = false := rfl
@[simp] theorem returnNone_inbox (s : State) : (returnNone s).inbox = s.inbox := rfl
@[simp] theorem returnNone_freeIdx (s : State) : (returnNone s).freeIdx = s.freeIdx := rfl

/-! ### startSession -/

@[simp] theorem startSession_cfg (v : Word) (s : State) : (startSession v s).cfg = s.cfg := rfl
@[simp] theorem startSession_enc (v : Word) (s : State) : (startSession v s).enc = s.enc := rfl
@[simp] theorem startSession_dec_cur (v : Word) (s : State) : (startSession v s).dec.cur = v := rfl
@[simp] theorem startSession_dec_lead (v : Word) (s : State) : (startSession v s).dec.lead = 0#5 := rfl
@[simp] theorem startSession_dec_trail (v : Word) (s : State) : (startSession v s).dec.trail = 0#64 := rfl
@[simp] theorem startSession_dec_first (v : Word) (s : State) : (startSession v s).dec.first = true := rfl
@[simp] theorem startSession_dec_finished (v : Word) (s : State) : (startSession v s).dec.finished = false := rfl
@[simp] theorem startSession_dec_err (v : Word) (s : State) : (startSession v s).dec.err = .none := rfl
@[simp] theorem startSession_dec_inp (v : Word) (s : State) : (startSession v s).dec.inp = s.dec.inp := rfl
@[simp] theorem startSession_dec_hasStream (v : Word) (s : State) : (startSession v s).dec.hasStream = s.dec.hasStream := rfl
@[simp] theorem startSession_dec_pos (v : Word) (s : State) : (startSession v s).dec.pos = s.dec.pos := rfl
@[simp] theorem startSession_dec_lim (v : Word) (s : State) : (startSession v s).dec.lim = s.dec.lim := rfl
@[simp] theorem startSession_res_obuf (v : Word) (s : State) : (startSession v s).res.obuf = s.res.obuf := rfl
@[simp] theorem startSession_res_oerr (v : Word) (s : State) : (startSession v s).res.oerr = s.res.oerr := rfl
@[simp] theorem startSession_res_ok (v : Word) (s : State) : (startSession v s).res.ok = true := rfl
@[simp] theorem startSession_res_avail (v : Word) (s : State) : (startSession v s).res.avail = s.res.avail := rfl
@[simp] theorem startSession_res_rdata (v : Word) (s : State) : (startSession v s).res.rdata = s.res.rdata := rfl
@[simp] theorem startSession_res_rerr (v : Word) (s : State) : (startSession v s).res.rerr = s.res.rerr := rfl
@[simp] theorem startSession_gotValue (v : Word) (s : State) : (startSession v s).gotValue = false := rfl
@[simp] theorem startSession_inputInUse (v : Word) (s : State) : (startSession v s).inputInUse = true := rfl
@[simp] theorem startSession_inbox (v : Word) (s : State) : (startSession v s).inbox = s.inbox := rfl
@[simp] theorem startSession_freeIdx (v : Word) (s : State) : (startSession v s).freeIdx = s.freeIdx := rfl

/-! ### skipHeader -/

@[simp] theorem skipHeader_cfg (s : State) : (skipHeader s).cfg = s.cfg := rfl
@[simp] theorem skipHeader_enc (s : State) : (skipHeader s).enc = s.enc := rfl
@[simp] theorem skipHeader_dec_cur (s : State) : (skipHeader s).dec.cur = s.dec.cur := rfl
@[simp] theorem skipHeader_dec_lead (s : State) : (skipHeader s).dec.lead = s.dec.lead := rfl
@[simp] theorem skipHeader_dec_trail (s : State) : (skipHeader s).dec.trail = s.dec.trail := rfl
@[simp] theorem skipHeader_dec_first (s : State) : (skipHeader s).dec.first = s.dec.first := rfl
@[simp] theorem skipHeader_dec_finished (s : State) : (skipHeader s).dec.finished = s.dec.finished := rfl
@[simp] theorem skipHeader_dec_err (s : State) : (skipHeader s).dec.err = s.dec.err := rfl
@[simp] theorem skipHeader_dec_inp (s : State) : (skipHeader s).dec.inp = s.dec.inp := rfl
@[simp] theorem skipHeader_dec_hasStream (s : State) : (skipHeader s).dec.hasStream = decide (s.dec.inp.size ≠ 0) := rfl
@[simp] theorem skipHeader_dec_pos (s : State) : (skipHeader s).dec.pos = 0 := rfl
@[simp] theorem skipHeader_dec_lim (s : State) : (skipHeader s).dec.lim = 8 * (s.dec.inp.size - 1) := rfl
@[simp] theorem skipHeader_res (s : State) : (skipHeader s).res = s.res := rfl
@[simp] theorem skipHeader_gotValue (s : State) : (skipHeader s).gotValue = s.gotValue := rfl
@[simp] theorem skipHeader_inputInUse (s : State) : (skipHeader s).inputInUse = s.inputInUse := rfl
@[simp] theorem skipHeader_inbox (s : State) : (skipHeader s).inbox = s.inbox := rfl
@[simp] theorem skipHeader_freeIdx (s : State) : (skipHeader s).freeIdx = s.freeIdx := rfl

/-! ### takeSeed -/

@[simp] theorem takeSeed_cfg (v : Word) (s : State) : (takeSeed v s).cfg = s.cfg := rfl
@[simp] theorem takeSeed_enc (v : Word) (s : State) : (takeSeed v s).enc = s.enc := rfl
@[simp] theorem takeSeed_dec_cur (v : Word) (s : State) : (takeSeed v s).dec.cur = v := rfl
@[simp] theorem takeSeed_dec_lead (v : Word) (s : State) : (takeSeed v s).dec.lead = 0#5 := rfl
@[simp] theorem takeSeed_dec_trail (v : Word) (s : State) : (takeSeed v s).dec.trail = 0#64 := rfl
@[simp] theorem takeSeed_dec_first (v : Word) (s : State) : (takeSeed v s).dec.first = true := rfl
@[simp] theorem takeSeed_dec_finished (v : Word) (s : State) : (takeSeed v s).dec.finished = false := rfl
@[simp] theorem takeSeed_dec_err (v : Word) (s : State) : (takeSeed v s).dec.err = .none := rfl
@[simp] theorem takeSeed_dec_inp (v : Word) (s : State) : (takeSeed v s).dec.inp = s.dec.inp := rfl
@[simp] theorem takeSeed_dec_hasStream (v : Word) (s : State) : (takeSeed v s).dec.hasStream = s.dec.hasStream := rfl
@[simp] theorem takeSeed_dec_pos (v : Word) (s : State) : (takeSeed v s).dec.pos = 64 := rfl
@[simp] theorem takeSeed_dec_lim (v : Word) (s : State) : (takeSeed v s).dec.lim = s.dec.lim := rfl
@[simp] theorem takeSeed_res_obuf (v : Word) (s : State) : (takeSeed v s).res.obuf = s.res.obuf := rfl
@[simp] theorem takeSeed_res_oerr (v : Word) (s : State) : (takeSeed v s).res.oerr = s.res.oerr := rfl
@[simp] theorem takeSeed_res_ok (v : Word) (s : State) : (takeSeed v s).res.ok = true := rfl
@[simp] theorem takeSeed_res_avail (v : Word) (s : State) : (takeSeed v s).res.avail = s.res.avail := rfl
@[simp] theorem takeSeed_res_rdata (v : Word) (s : State) : (takeSeed v s).res.rdata = s.res.rdata := rfl
@[simp] theorem takeSeed_res_rerr (v : Word) (s : State) : (takeSeed v s).res.rerr = s.res.rerr := rfl
@[simp] theorem takeSeed_gotValue (v : Word) (s : State) : (takeSeed v s).gotValue = false := rfl
@[simp] theorem takeSeed_inputInUse (v : Word) (s : State) : (takeSeed v s).inputInUse = true := rfl
@[simp] theorem takeSeed_inbox (v : Word) (s : State) : (takeSeed v s).inbox = s.inbox := rfl
@[simp] theorem takeSeed_freeIdx (v : Word) (s : State) : (takeSeed v s).freeIdx = s.freeIdx := rfl

/-! ### failSession -/

@[simp] theorem failSession_cfg (s : State) : (failSession s).cfg = s.cfg := rfl
@[simp] theorem failSession_enc (s : State) : (failSession s).enc = s.enc := rfl
@[simp] theorem failSession_dec_cur (s : State) : (failSession s).dec.cur = Config.freeWord s.freeIdx := rfl
@[simp] theorem failSession_dec_lead (s : State) : (failSession s).dec.lead = 0#5 := rfl
@[simp] theorem failSession_dec_trail (s : State) : (failSession s).dec.trail = 0#64 := rfl
@[simp] theorem failSession_dec_first (s : State) : (failSession s).dec.first = true := rfl
@[simp] theorem failSession_dec_finished (s : State) : (failSession s).dec.finished = false := rfl
@[simp] theorem failSession_dec_err (s : State) : (failSession s).dec.err = .truncatedStream := rfl
@[simp] theorem failSession_dec_inp (s : State) : (failSession s).dec.inp = s.dec.inp := rfl
@[simp] theorem failSession_dec_hasStream (s : State) : (failSession s).dec.hasStream = s.dec.hasStream := rfl
@[simp] theorem failSession_dec_pos (s : State) : (failSession s).dec.pos = s.dec.pos := rfl
@[simp] theorem failSession_dec_lim (s : State) : (failSession s).dec.lim = s.dec.lim := rfl
@[simp] theorem failSession_res_obuf (s : State) : (failSession s).res.obuf = s.res.obuf := rfl
@[simp] theorem failSession_res_oerr (s : State) : (failSession s).res.oerr = s.res.oerr := rfl
@[simp] theorem failSession_res_ok (s : State) : (failSession s).res.ok = false := rfl
@[simp] theorem failSession_res_avail (s : State) : (failSession s).res.avail = s.res.avail := rfl
@[simp] theorem failSession_res_rdata (s : State) : (failSession s).res.rdata = s.res.rdata := rfl
@[simp] theorem failSession_res_rerr (s : State) : (failSession s).res.rerr = s.res.rerr := rfl
@[simp] theorem failSession_gotValue (s : State) : (failSession s).gotValue = false := rfl
@[simp] theorem failSession_inputInUse (s : State) : (failSession s).inputInUse = true := rfl
@[simp] theorem failSession_inbox (s : State) : (failSession s).inbox = s.inbox := rfl
@[simp] theorem failSession_freeIdx (s : State) : (failSession s).freeIdx = s.freeIdx + 1 := rfl

/-! ### freeWindow -/

@[simp] theorem freeWindow_cfg (s : State) : (freeWindow s).cfg = s.cfg := rfl
@[simp] theorem freeWindow_enc (s : State) : (freeWindow s).enc = s.enc := rfl
@[simp] theorem freeWindow_dec_cur (s : State) : (freeWindow s).dec.cur = s.dec.cur := rfl
@[simp] theorem freeWindow_dec_lead (s : State) : (freeWindow s).dec.lead = (Config.freeWord s.freeIdx).setWidth 5 := rfl
@[simp] theorem freeWindow_dec_trail (s : State) : (freeWindow s).dec.trail =
    trailValue s.cfg.malformed (Config.freeWord (s.freeIdx + 1)) := rfl
@[simp] theorem freeWindow_dec_first (s : State) : (freeWindow s).dec.first = s.dec.first := rfl
@[simp] theorem freeWindow_dec_finished (s : State) : (freeWindow s).dec.finished = s.dec.finished := rfl
@[simp] theorem freeWindow_dec_err (s : State) : (freeWindow s).dec.err = s.dec.err := rfl
@[simp] theorem freeWindow_dec_inp (s : State) : (freeWindow s).dec.inp = s.dec.inp := rfl
@[simp] theorem freeWindow_dec_hasStream (s : State) : (freeWindow s).dec.hasStream = s.dec.hasStream := rfl
@[simp] theorem freeWindow_dec_pos (s : State) : (freeWindow s).dec.pos = s.dec.pos := rfl
@[simp] theorem freeWindow_dec_lim (s : State) : (freeWindow s).dec.lim = s.dec.lim := rfl
@[simp] theorem freeWindow_res (s : State) : (freeWindow s).res = s.res := rfl
@[simp] theorem freeWindow_gotValue (s : State) : (freeWindow s).gotValue = s.gotValue := rfl
@[simp] theorem freeWindow_inputInUse (s : State) : (freeWindow s).inputInUse = s.inputInUse := rfl
@[simp] theorem freeWindow_inbox (s : State) : (freeWindow s).inbox = s.inbox := rfl
@[simp] theorem freeWindow_freeIdx (s : State) : (freeWindow s).freeIdx = s.freeIdx + 2 := rfl

/-! ### issueFirst -/

@[simp] theorem issueFirst_cfg (p : PortWord) (s : State) : (issueFirst p s).cfg = s.cfg := rfl
@[simp] theorem issueFirst_enc (p : PortWord) (s : State) : (issueFirst p s).enc = s.enc := rfl
@[simp] theorem issueFirst_dec (p : PortWord) (s : State) : (issueFirst p s).dec = s.dec := rfl
@[simp] theorem issueFirst_res (p : PortWord) (s : State) : (issueFirst p s).res = s.res := rfl
@[simp] theorem issueFirst_gotValue (p : PortWord) (s : State) : (issueFirst p s).gotValue = s.gotValue := rfl
@[simp] theorem issueFirst_inputInUse (p : PortWord) (s : State) : (issueFirst p s).inputInUse = s.inputInUse := rfl
@[simp] theorem issueFirst_inbox (p : PortWord) (s : State) : (issueFirst p s).inbox = .command p :: s.inbox := rfl
@[simp] theorem issueFirst_freeIdx (p : PortWord) (s : State) : (issueFirst p s).freeIdx = s.freeIdx := rfl

/-! ### raiseEnc, raiseDec -/

@[simp] theorem raiseEnc_prev (k : ErrKind) (e : Enc) : (raiseEnc k e).prev = e.prev := rfl
@[simp] theorem raiseEnc_winValid (k : ErrKind) (e : Enc) : (raiseEnc k e).winValid = e.winValid := rfl
@[simp] theorem raiseEnc_lead (k : ErrKind) (e : Enc) : (raiseEnc k e).lead = e.lead := rfl
@[simp] theorem raiseEnc_trail (k : ErrKind) (e : Enc) : (raiseEnc k e).trail = e.trail := rfl
@[simp] theorem raiseEnc_first (k : ErrKind) (e : Enc) : (raiseEnc k e).first = e.first := rfl
@[simp] theorem raiseEnc_finished (k : ErrKind) (e : Enc) : (raiseEnc k e).finished = e.finished := rfl
@[simp] theorem raiseEnc_err (k : ErrKind) (e : Enc) : (raiseEnc k e).err = k := rfl
@[simp] theorem raiseEnc_out (k : ErrKind) (e : Enc) : (raiseEnc k e).out = e.out := rfl
@[simp] theorem raiseEnc_pend (k : ErrKind) (e : Enc) : (raiseEnc k e).pend = e.pend := rfl
@[simp] theorem raiseEnc_pcnt (k : ErrKind) (e : Enc) : (raiseEnc k e).pcnt = e.pcnt := rfl
@[simp] theorem raiseDec_cur (k : ErrKind) (d : Dec) : (raiseDec k d).cur = d.cur := rfl
@[simp] theorem raiseDec_lead (k : ErrKind) (d : Dec) : (raiseDec k d).lead = d.lead := rfl
@[simp] theorem raiseDec_trail (k : ErrKind) (d : Dec) : (raiseDec k d).trail = d.trail := rfl
@[simp] theorem raiseDec_first (k : ErrKind) (d : Dec) : (raiseDec k d).first = d.first := rfl
@[simp] theorem raiseDec_finished (k : ErrKind) (d : Dec) : (raiseDec k d).finished = d.finished := rfl
@[simp] theorem raiseDec_err (k : ErrKind) (d : Dec) : (raiseDec k d).err = k := rfl
@[simp] theorem raiseDec_inp (k : ErrKind) (d : Dec) : (raiseDec k d).inp = d.inp := rfl
@[simp] theorem raiseDec_hasStream (k : ErrKind) (d : Dec) : (raiseDec k d).hasStream = d.hasStream := rfl
@[simp] theorem raiseDec_pos (k : ErrKind) (d : Dec) : (raiseDec k d).pos = d.pos := rfl
@[simp] theorem raiseDec_lim (k : ErrKind) (d : Dec) : (raiseDec k d).lim = d.lim := rfl

end Sys2Proof.Machine
end

