-- ==== Sys2Proof/Laws/Memory.lean ====
section
/-! SUPPORT. Lemmas about the byte memories: every operation keeps the canonical form, and what a read
gives after a write. -/

namespace Sys2Proof.Machine

/-! ## Contents -/

@[simp] theorem Memory.bytes_length (m : Memory) : m.bytes.length = m.size := by
  simp [Memory.bytes, Memory.size]

@[simp] theorem Memory.bytes_push (m : Memory) (b : Byte) : (m.push b).bytes = m.bytes ++ [b] := by
  simp [Memory.bytes, Memory.push]

@[simp] theorem Memory.size_push (m : Memory) (b : Byte) : (m.push b).size = m.size + 1 := by
  simp [Memory.size, Memory.push]

@[simp] theorem Memory.bytes_cellsFrom (a : Nat) (bs : List Byte) : (Memory.cellsFrom a bs).bytes = bs := by
  induction bs generalizing a with
  | nil => rfl
  | cons b bs ih => simpa [Memory.cellsFrom, Memory.bytes] using ih (a + 1)

@[simp] theorem Memory.bytes_ofBytes (bs : List Byte) : (Memory.ofBytes bs).bytes = bs :=
  Memory.bytes_cellsFrom 0 bs

@[simp] theorem Memory.size_ofBytes (bs : List Byte) : (Memory.ofBytes bs).size = bs.length := by
  rw [← Memory.bytes_length, Memory.bytes_ofBytes]

/-! ## The canonical form -/

theorem Memory.wf_iff (m : Memory) : m.wf = true ↔ m.map Prod.fst = List.range m.length := by
  simp [Memory.wf]

theorem Memory.cellsFrom_indices (a : Nat) (bs : List Byte) :
    (Memory.cellsFrom a bs).map Prod.fst = List.range' a bs.length := by
  induction bs generalizing a with
  | nil => rfl
  | cons b bs ih => simp [Memory.cellsFrom, ih, List.range'_succ]

theorem Memory.wf_ofBytes (bs : List Byte) : (Memory.ofBytes bs).wf = true := by
  have h : (Memory.ofBytes bs).length = bs.length := Memory.size_ofBytes bs
  rw [Memory.wf_iff, h, Memory.ofBytes, Memory.cellsFrom_indices, List.range_eq_range']

theorem Memory.wf_push {m : Memory} (h : m.wf = true) (b : Byte) : (m.push b).wf = true := by
  rw [Memory.wf_iff] at h ⊢
  simp [Memory.push, Memory.size, h, List.range_succ]

theorem Memory.eq_cellsFrom {m : Memory} {a : Nat} (h : m.map Prod.fst = List.range' a m.length) :
    m = Memory.cellsFrom a m.bytes := by
  induction m generalizing a with
  | nil => rfl
  | cons c m ih =>
    obtain ⟨i, b⟩ := c
    simp only [List.map_cons, List.length_cons, List.range'_succ, List.cons.injEq] at h
    simp only [Memory.bytes, List.map_cons, Memory.cellsFrom, h.1]
    rw [← Memory.bytes, ← ih h.2]

/-- Equal contents are equal data. -/
theorem Memory.eq_ofBytes {m : Memory} (h : m.wf = true) : m = Memory.ofBytes m.bytes := by
  rw [Memory.wf_iff, List.range_eq_range'] at h
  exact Memory.eq_cellsFrom h

/-! ## Reads -/

theorem Memory.read_cellsFrom (a : Nat) (bs : List Byte) (i : Nat) :
    Memory.read (Memory.cellsFrom a bs) i = if a ≤ i then bs[i - a]? else none := by
  induction bs generalizing a with
  | nil => simp [Memory.cellsFrom, Memory.read]
  | cons b bs ih =>
    have ih' := ih (a + 1)
    simp only [Memory.read, Memory.cellsFrom] at ih' ⊢
    rcases Nat.lt_trichotomy a i with h | h | h
    · rw [List.find?_cons_of_neg (by simp; omega), ih', if_pos (by omega), if_pos (by omega)]
      have h1 : i - a = (i - (a + 1)) + 1 := by omega
      rw [h1, List.getElem?_cons_succ]
    · subst h; simp
    · rw [List.find?_cons_of_neg (by simp; omega), ih', if_neg (by omega), if_neg (by omega)]

/-- A read gives the byte that stands at the index, or none above the length. -/
theorem Memory.read_eq {m : Memory} (h : m.wf = true) (i : Nat) : m.read i = m.bytes[i]? := by
  have h1 := Memory.read_cellsFrom 0 m.bytes i
  rw [if_pos (Nat.zero_le i), Nat.sub_zero, ← Memory.ofBytes, ← Memory.eq_ofBytes h] at h1
  exact h1

/-- A read after an append: the new byte at the old length, and every other index as before. -/
theorem Memory.read_push {m : Memory} (h : m.wf = true) (b : Byte) (i : Nat) :
    (m.push b).read i = if i = m.size then some b else m.read i := by
  rw [Memory.read_eq (Memory.wf_push h b), Memory.read_eq h, Memory.bytes_push]
  rcases Nat.lt_trichotomy i m.size with h1 | h1 | h1
  · rw [List.getElem?_append_left (by simpa using h1), if_neg (by omega)]
  · subst h1; rw [List.getElem?_append_right (by simp)]; simp
  · rw [List.getElem?_append_right (by simp; omega), if_neg (by omega),
      List.getElem?_eq_none (by simp; omega), List.getElem?_eq_none (by simp; omega)]

theorem Memory.read_ofBytes (bs : List Byte) (i : Nat) : (Memory.ofBytes bs).read i = bs[i]? := by
  rw [Memory.read_eq (Memory.wf_ofBytes bs), Memory.bytes_ofBytes]

/-- The memories of the reset state have the canonical form. -/
theorem Memory.wf_reset : State.reset.enc.out.wf = true ∧ State.reset.dec.inp.wf = true := by decide

end Sys2Proof.Machine
end

