-- ==== Sys2Proof/Laws/Unpacker.lean ====
section
/-! SUPPORT. What the bit unpacker can do: GetBits reads the bits of the attached stream that stand at
the cursor, or fails where they run past the end. -/

namespace Sys2Proof.Machine

@[simp] theorem byteBits_length (b : Byte) : (byteBits b).length = 8 := by simp [byteBits]

theorem byteBits_getElem? (b : Byte) (i : Nat) (h : i < 8) : (byteBits b)[i]? = some (b.getLsbD (7 - i)) := by
  rw [byteBits, bitsOf_getElem?, if_pos h, BitVec.getLsbD_setWidth]
  have h1 : 8 - 1 - i < 64 := by omega
  simp [h1]

theorem flatMap_byteBits_length (bs : List Byte) : (bs.flatMap byteBits).length = 8 * bs.length := by
  induction bs with
  | nil => rfl
  | cons b bs ih => rw [List.flatMap_cons, List.length_append, byteBits_length, ih, List.length_cons]; omega

@[simp] theorem streamOf_length (bs : List Byte) : (streamOf bs).length = 8 * (bs.length - 1) := by
  rw [streamOf, flatMap_byteBits_length, List.length_drop]

theorem flatMap_byteBits_getElem? (bs : List Byte) (p : Nat) :
    (bs.flatMap byteBits)[p]? = bs[p / 8]?.map fun b => b.getLsbD (7 - p % 8) := by
  induction bs generalizing p with
  | nil => simp
  | cons b bs ih =>
    rw [List.flatMap_cons]
    by_cases h : p < 8
    · rw [List.getElem?_append_left (by simpa using h), byteBits_getElem? _ _ h, Nat.div_eq_of_lt h,
        Nat.mod_eq_of_lt h]
      simp
    · rw [List.getElem?_append_right (by simpa using h), byteBits_length, ih]
      have h1 : p / 8 = (p - 8) / 8 + 1 := by omega
      have h2 : p % 8 = (p - 8) % 8 := by omega
      rw [h1, h2, List.getElem?_cons_succ]

/-- Bit `p` of the stream (10_state.md R25). -/
theorem streamBit_eq {inp : Memory} (h : inp.wf = true) (p : Nat) :
    streamBit inp p = (streamOf inp.bytes)[p]? := by
  rw [streamBit, Memory.read_eq h, streamOf, flatMap_byteBits_getElem?, List.getElem?_drop]

theorem readBits_eq {inp : Memory} (h : inp.wf = true) (n : Nat) :
    ∀ (p : Nat) (r : Word), p + n ≤ (streamOf inp.bytes).length →
      readBits inp p n r = some ((((streamOf inp.bytes).drop p).take n).foldl shiftIn r) := by
  induction n with
  | zero => intro p r _; simp [readBits]
  | succ n ih =>
    intro p r hp
    have hlt : p < (streamOf inp.bytes).length := by omega
    rw [readBits, streamBit_eq h, List.getElem?_eq_getElem hlt]
    simp only
    rw [ih (p + 1) _ (by omega), List.drop_eq_getElem_cons hlt, List.take_succ_cons, List.foldl_cons]

/-- GetBits on an attached decoder is the reader of the stream's bit string (20_memory.md R66). -/
theorem bitsAt_eq {d : Dec} (h : d.Attached) (p n : Nat) (hn : 1 ≤ n ∨ d.hasStream = true) :
    bitsAt d p n = bitsGet (streamOf d.inp.bytes) p n := by
  obtain ⟨hw, hs, hl, _⟩ := h
  have hlen : (streamOf d.inp.bytes).length = d.lim := by rw [streamOf_length, Memory.bytes_length, hl]
  unfold bitsAt bitsGet
  rw [hlen, wordOf]
  by_cases hp : p + n ≤ d.lim
  · have hst : d.hasStream = true := by
      rcases hn with hn | hn
      · have hsz : d.inp.size ≠ 0 := by intro h0; rw [hl, h0] at hp; omega
        rw [hs]; exact decide_eq_true hsz
      · exact hn
    simp only [hst, hp, decide_true, Bool.and_self, if_true]
    exact readBits_eq hw n p _ (by omega)
  · simp [hp]

/-- The unread bits of an attached decoder. -/
theorem Dec.rest_eq {d : Dec} (h : d.Attached) : d.rest = (streamOf d.inp.bytes).drop d.pos := by
  obtain ⟨_, hs, hl, hp⟩ := h
  have hlen : (streamOf d.inp.bytes).length = d.lim := by rw [streamOf_length, Memory.bytes_length, hl]
  unfold Dec.rest
  split
  · rw [← hlen, List.take_length]
  · rename_i h0
    have hz : d.inp.size = 0 := by simpa [hs] using h0
    have : streamOf d.inp.bytes = [] := List.eq_nil_of_length_eq_zero (by rw [hlen, hl, hz])
    rw [this]; simp

/-- GetBits at `k` bits past the cursor reads the unread bits. -/
theorem bitsAt_rest {d : Dec} (h : d.Attached) (k n : Nat) (hn : 1 ≤ n ∨ d.hasStream = true) :
    bitsAt d (d.pos + k) n = bitsGet d.rest k n := by
  rw [bitsAt_eq h _ _ hn, Dec.rest_eq h]
  have hlen : (streamOf d.inp.bytes).length = d.lim := by
    rw [streamOf_length, Memory.bytes_length, h.2.2.1]
  have hp := h.2.2.2
  simp only [bitsGet, List.length_drop, hlen, List.drop_drop]
  split <;> split <;> first | rfl | omega

/-- Buffers whose bytes spell the same bits are the same bytes. -/
theorem flatMap_byteBits_inj {xs ys : List Byte} (h : xs.flatMap byteBits = ys.flatMap byteBits) : xs = ys := by
  have hl : xs.length = ys.length := by
    have := congrArg List.length h
    simp only [flatMap_byteBits_length] at this; omega
  apply List.ext_getElem? 
  intro k
  by_cases hk : k < xs.length
  · rw [List.getElem?_eq_getElem hk, List.getElem?_eq_getElem (hl ▸ hk), Option.some.injEq]
    apply BitVec.eq_of_getLsbD_eq
    intro i hi
    have h1 := congrArg (fun l => l[8 * k + (7 - i)]?) h
    simp only [flatMap_byteBits_getElem?] at h1
    have h2 : (8 * k + (7 - i)) / 8 = k := by omega
    have h3 : 7 - (8 * k + (7 - i)) % 8 = i := by omega
    rw [h2, h3, List.getElem?_eq_getElem hk, List.getElem?_eq_getElem (hl ▸ hk)] at h1
    simpa using h1
  · rw [List.getElem?_eq_none (by omega), List.getElem?_eq_none (by omega)]

/-- The bytes of a word, most significant first, spell its bits (20_memory.md R68). -/
theorem bigEndian_bits (w : Word) : (bigEndian w).flatMap byteBits = bitsOf w 64 := by
  apply List.ext_getElem?
  intro i
  rw [flatMap_byteBits_getElem?, bitsOf_getElem?]
  unfold bigEndian
  by_cases hi : i < 64
  · have h8 : i / 8 < 8 := by omega
    have h7 : 7 - i % 8 < 8 := by omega
    have hx : 56 - 8 * (i / 8) + (7 - i % 8) = 63 - i := by omega
    simp [hi, List.getElem?_map, List.getElem?_range h8, h7, hx]
  · simp [hi]; omega

end Sys2Proof.Machine
end

