-- ==== Sys2Proof/Laws/Decoder.lean ====
section
/-! SUPPORT. What the decoder's shared operations can do: the record reader depends on the unread bits
alone, and the case analyses of DEC_NEXT, DEC_SETBYTES and the records. -/

namespace Sys2Proof.Machine

/-- The reader of records sees its input through `get` at and after its position alone. -/
theorem readRecord_congr {get get' : Nat → Nat → Option Word} (policy : MalformedPolicy) {W : Window}
    {p q : Nat} (h : ∀ k n, 1 ≤ n → get (p + k) n = get' (q + k) n)
    (hw : get (p + 2) (windowWidth W) = get' (q + 2) (windowWidth W)) :
    readRecord get policy W p = readRecord get' policy W q := by
  have h0 := h 0 1 (by decide)
  simp only [Nat.add_zero] at h0
  unfold readRecord
  rw [h0, h 1 1 (by decide), hw, h 2 5 (by decide), h 7 6 (by decide)]
  have h13 : ∀ s6 : BitVec 6, get (p + 13) (sigCount s6) = get' (q + 13) (sigCount s6) :=
    fun s6 => h 13 _ (sigCount_pos s6)
  simp only [h13]

/-- What stands at the cursor of an attached decoder is read from its unread bits. -/
theorem fetchRecord_eq {s : State} (h : s.dec.Attached)
    (hw : 1 ≤ windowWidth s.dec.window ∨ s.dec.hasStream = true) :
    fetchRecord s = readRecord (bitsGet s.dec.rest) s.cfg.malformed s.dec.window 0 :=
  readRecord_congr _ (fun k n hn => by rw [bitsAt_rest h k n (.inl hn), Nat.zero_add])
    (by rw [bitsAt_rest h 2 _ hw])

/-- A decoder with unread bits has a stream attached. -/
theorem Dec.hasStream_of_rest {d : Dec} (h : d.rest ≠ []) : d.hasStream = true := by
  by_contra hc
  exact h (by rw [Dec.rest, if_neg hc])

theorem terminal_eq_false {d : Dec} : terminal d = false ↔ d.err = .none ∧ d.finished = false := by
  simp [terminal]

theorem terminal_eq_true {d : Dec} : terminal d = true ↔ d.err ≠ .none ∨ d.finished = true := by
  simp [terminal]

/-- The two checks of DEC_NEXT do not stop a session that has passed its seed. -/
theorem afterChecks_go {s : State} {k : State → State} (he : s.dec.err = .none) (hf : s.dec.finished = false)
    (h1 : s.dec.first = false) : afterChecks s k = k s := by
  simp [afterChecks, terminal, he, hf, h1]

theorem afterChecks_terminal {s : State} {k : State → State} (h : terminal s.dec = true) :
    afterChecks s k = returnNone s := by
  simp [afterChecks, h]

theorem afterChecks_first {s : State} {k : State → State} (he : s.dec.err = .none)
    (hf : s.dec.finished = false) (h1 : s.dec.first = true) : afterChecks s k = seedStep s := by
  simp [afterChecks, terminal, he, hf, h1]

/-- All that the checks of DEC_NEXT can lead to. -/
theorem afterChecks_cases (s : State) (k : State → State) :
    (terminal s.dec = true ∧ afterChecks s k = returnNone s) ∨
    (s.dec.err = .none ∧ s.dec.finished = false ∧ s.dec.first = true ∧ afterChecks s k = seedStep s) ∨
    (s.dec.err = .none ∧ s.dec.finished = false ∧ s.dec.first = false ∧ afterChecks s k = k s) := by
  cases ht : terminal s.dec
  · obtain ⟨he, hf⟩ := terminal_eq_false.1 ht
    cases h1 : s.dec.first
    · exact .inr (.inr ⟨he, hf, rfl, afterChecks_go he hf h1⟩)
    · exact .inr (.inl ⟨he, hf, rfl, afterChecks_first he hf h1⟩)
  · exact .inl ⟨rfl, afterChecks_terminal ht⟩

/-- The candidate of a windowed record. -/
def candidate (m : Word) (d : Dec) : Word := d.cur ^^^ deltaOf d.trail m

/-- All that a windowed record's value can do (41_decoder.md R196, R197). -/
theorem takeDelta_cases (m : Word) (s : State) :
    (candidate m s.dec = s.cfg.sentinel ∧
      takeDelta m s = { s with dec := { s.dec with finished := true }, res := { s.res with avail := false },
                               inputInUse := false }) ∨
    (candidate m s.dec ≠ s.cfg.sentinel ∧
      takeDelta m s = { s with dec := { s.dec with cur := candidate m s.dec }, res := { s.res with avail := true },
                               gotValue := true }) := by
  unfold takeDelta candidate
  simp only
  split
  · rename_i h; exact .inl ⟨h, rfl⟩
  · rename_i h; exact .inr ⟨h, rfl⟩

/-- All that the seed step can do (41_decoder.md R191). -/
theorem seedStep_cases (s : State) :
    (s.dec.cur = s.cfg.sentinel ∧ seedStep s =
      { s with dec := { s.dec with first := false, finished := true }, res := { s.res with avail := false },
               inputInUse := false }) ∨
    (s.dec.cur ≠ s.cfg.sentinel ∧ seedStep s =
      { s with dec := { s.dec with first := false }, res := { s.res with avail := true }, gotValue := true }) := by
  unfold seedStep
  simp only
  split
  · rename_i h; exact .inl ⟨h, rfl⟩
  · rename_i h; exact .inr ⟨h, rfl⟩

/-- All that a NEW record can do (41_decoder.md R195 to R200). -/
theorem recordNew_cases (lead : BitVec 5) (s6 : BitVec 6) (m : Word) (s : State) :
    (malformedNew lead s6 = true ∧ s.cfg.malformed = .error ∧ recordNew lead s6 m s =
      { s with dec := { s.dec with pos := s.dec.pos + 13, err := .malformedStream },
               res := { s.res with avail := false }, inputInUse := false }) ∨
    ((malformedNew lead s6 = false ∨ s.cfg.malformed = .goWrap) ∧ recordNew lead s6 m s =
      takeDelta m { s with dec := { s.dec with pos := s.dec.pos + (13 + sigCount s6), lead := lead,
                                               trail := (newRecordWindow lead s6).trail } }) := by
  unfold recordNew
  cases hm : malformedNew lead s6
  · exact .inr ⟨.inl rfl, rfl⟩
  · cases hp : s.cfg.malformed
    · exact .inl ⟨rfl, rfl, rfl⟩
    · exact .inr ⟨.inr rfl, rfl⟩

/-- All that DEC_SETBYTES can do with an input it accepts (41_decoder.md R180 to R183). -/
theorem setBytes_cases (ibuf : List Byte) (s : State) :
    (ibuf = [] ∧ setBytes ibuf s = startSession s.cfg.sentinel
      { s with dec := { s.dec with inp := [], pos := 0, hasStream := false, lim := 0 } }) ∨
    (1 ≤ ibuf.length ∧ ibuf.length ≤ 8 ∧ setBytes ibuf s = failSession
      { s with dec := { s.dec with inp := Memory.ofBytes ibuf, pos := 0, hasStream := true,
                                   lim := 8 * (ibuf.length - 1) } }) ∨
    (9 ≤ ibuf.length ∧ setBytes ibuf s = takeSeed (wordOf ((streamOf ibuf).take 64))
      { s with dec := { s.dec with inp := Memory.ofBytes ibuf, pos := 0, hasStream := true,
                                   lim := 8 * (ibuf.length - 1) } }) := by
  rcases Nat.eq_zero_or_pos ibuf.length with h0 | h0
  · refine .inl ⟨List.eq_nil_of_length_eq_zero h0, ?_⟩
    rw [List.eq_nil_of_length_eq_zero h0]; rfl
  · refine .inr ?_
    have hne : ibuf.length ≠ 0 := by omega
    have hsk : skipHeader { s with dec := { s.dec with inp := Memory.ofBytes ibuf, pos := 0 } } =
        { s with dec := { s.dec with inp := Memory.ofBytes ibuf, pos := 0, hasStream := true,
                                     lim := 8 * (ibuf.length - 1) } } := by
      simp only [skipHeader, Memory.size_ofBytes, hne, ne_eq, not_false_eq_true, decide_true]
    have hat : Dec.Attached { s.dec with inp := Memory.ofBytes ibuf, pos := 0, hasStream := true,
                                         lim := 8 * (ibuf.length - 1) } :=
      ⟨Memory.wf_ofBytes ibuf, by rw [Memory.size_ofBytes]; exact (decide_eq_true hne).symm,
        by rw [Memory.size_ofBytes], Nat.zero_le _⟩
    have hget := bitsAt_eq hat 0 64 (.inl (by decide))
    unfold setBytes
    simp only [if_neg (by omega : ¬ ibuf.length = 0), hsk]
    rw [hget]
    simp only [Memory.bytes_ofBytes]
    by_cases h9 : 9 ≤ ibuf.length
    · refine .inr ⟨h9, ?_⟩
      rw [bitsGet, if_pos (by rw [streamOf_length]; omega), List.drop_zero]
    · refine .inl ⟨h0, by omega, ?_⟩
      rw [bitsGet_none (by rw [streamOf_length]; omega)]

/-- GetBits succeeds within the attached stream alone (20_memory.md R66). -/
theorem bitsAt_some {d : Dec} {p n : Nat} {v : Word} (h : bitsAt d p n = some v) : p + n ≤ d.lim := by
  unfold bitsAt at h
  split at h
  · rename_i hc; simp only [Bool.and_eq_true, decide_eq_true_eq] at hc; exact hc.2
  · cases h

/-- How far the cursor moves over what stands at it. -/
def consumedBits (policy : MalformedPolicy) (W : Window) : RecordRead → Nat
  | .record r => if refusedMalformed policy r then 13 else recordLength W r
  | .truncated bitsRead _ => bitsRead

/-- The reader never passes the end of the stream. -/
theorem fetchRecord_consumed {s : State} (h : s.dec.pos ≤ s.dec.lim) :
    s.dec.pos + consumedBits s.cfg.malformed s.dec.window (fetchRecord s) ≤ s.dec.lim := by
  unfold fetchRecord readRecord
  split
  · simpa [consumedBits] using h
  rename_i h1
  have b1 := bitsAt_some h1
  split
  · simpa [consumedBits, refusedMalformed, recordLength] using b1
  split
  · simpa [consumedBits] using b1
  rename_i h2
  have b2 := bitsAt_some h2
  split
  · split
    · simpa [consumedBits, Nat.add_assoc] using b2
    · rename_i h3
      simpa [consumedBits, refusedMalformed, recordLength, Nat.add_assoc] using bitsAt_some h3
  split
  · simpa [consumedBits, Nat.add_assoc] using b2
  rename_i h3
  have b3 := bitsAt_some h3
  split
  · simpa [consumedBits, Nat.add_assoc] using b3
  rename_i h4
  have b4 := bitsAt_some h4
  simp only
  split
  · rename_i hm
    simpa [consumedBits, refusedMalformed, hm, Nat.add_assoc] using b4
  rename_i hm
  split
  · simpa [consumedBits, Nat.add_assoc] using b4
  · rename_i h5
    simpa [consumedBits, refusedMalformed, hm, recordLength, Nat.add_assoc] using bitsAt_some h5

/-- The free trailing count is one the register can hold (10_state.md R24). -/
theorem trailValue_error (w : Word) : (trailValue .error w).toNat ≤ 63 := by
  have h : (w.setWidth 6).toNat < 2 ^ 6 := (w.setWidth 6).isLt
  simp only [trailValue, BitVec.toNat_setWidth] at h ⊢
  omega

/-- All that a cut record does (41_decoder.md R198): the window is as before unless a NEW record was cut,
and it is always one the registers can hold. -/
theorem truncate_cases (n : Nat) (inNew : Bool) (s : State) :
    ∃ (W : Window) (idx : Nat), truncate n inNew s =
      { s with dec := { s.dec with pos := s.dec.pos + n, lead := W.lead, trail := W.trail, err := .truncatedStream },
               res := { s.res with avail := false }, inputInUse := false, freeIdx := idx } ∧
      (inNew = false → W = s.dec.window ∧ idx = s.freeIdx) ∧
      (s.cfg.malformed = .error → s.dec.trail.toNat ≤ 63 → W.trail.toNat ≤ 63) := by
  cases inNew
  · exact ⟨s.dec.window, s.freeIdx, rfl, fun _ => ⟨rfl, rfl⟩, fun _ h => h⟩
  · refine ⟨⟨(Config.freeWord s.freeIdx).setWidth 5, trailValue s.cfg.malformed (Config.freeWord (s.freeIdx + 1))⟩,
      s.freeIdx + 2, rfl, fun h => (by cases h), fun h _ => ?_⟩
    rw [h]; exact trailValue_error _

/-- A window that a record leaves in force: the window before it, or the one a NEW record sets. -/
def WindowAfter (policy : MalformedPolicy) (W W' : Window) : Prop :=
  W' = W ∨ ∃ lead s6, W' = newRecordWindow lead s6 ∧ (malformedNew lead s6 = false ∨ policy = .goWrap)

/-- All that reading and executing one record can do: a value, the end of the stream, or an error. -/
theorem nextRecord_cases (s : State) : ∃ (pos : Nat) (W : Window), (s.dec.pos ≤ s.dec.lim → pos ≤ s.dec.lim) ∧
    ((∃ c, (c = s.dec.cur ∨ c ≠ s.cfg.sentinel) ∧ WindowAfter s.cfg.malformed s.dec.window W ∧ nextRecord s =
        { s with dec := { s.dec with pos := pos, lead := W.lead, trail := W.trail, cur := c },
                 res := { s.res with avail := true }, gotValue := true }) ∨
     (WindowAfter s.cfg.malformed s.dec.window W ∧ nextRecord s =
        { s with dec := { s.dec with pos := pos, lead := W.lead, trail := W.trail, finished := true },
                 res := { s.res with avail := false }, inputInUse := false }) ∨
     (∃ k idx, (k = .truncatedStream ∨ k = .malformedStream) ∧
        (s.cfg.malformed = .error → s.dec.trail.toNat ≤ 63 → W.trail.toNat ≤ 63) ∧ nextRecord s =
        { s with dec := { s.dec with pos := pos, lead := W.lead, trail := W.trail, err := k },
                 res := { s.res with avail := false }, inputInUse := false, freeIdx := idx })) := by
  have hpos : s.dec.pos ≤ s.dec.lim →
      s.dec.pos + consumedBits s.cfg.malformed s.dec.window (fetchRecord s) ≤ s.dec.lim :=
    fetchRecord_consumed
  unfold nextRecord
  cases hf : fetchRecord s with
  | truncated n inNew =>
    obtain ⟨W, idx, he, _, ht⟩ := truncate_cases n inNew s
    rw [hf] at hpos
    exact ⟨_, W, hpos, .inr (.inr ⟨_, idx, .inl rfl, ht, he⟩)⟩
  | record r =>
    rw [hf] at hpos
    cases r with
    | same => exact ⟨_, s.dec.window, hpos, .inl ⟨s.dec.cur, .inl rfl, .inl rfl, rfl⟩⟩
    | reuse m =>
      refine ⟨_, s.dec.window, hpos, ?_⟩
      rcases takeDelta_cases m (advance (2 + windowWidth s.dec.window) s) with ⟨_, e⟩ | ⟨h, e⟩
      · exact .inr (.inl ⟨.inl rfl, e⟩)
      · exact .inl ⟨_, .inr h, .inl rfl, e⟩
    | newWindow lead s6 m =>
      rcases recordNew_cases lead s6 m s with ⟨h1, h2, e⟩ | ⟨h1, e⟩
      · have hc : consumedBits s.cfg.malformed s.dec.window (.record (.newWindow lead s6 m)) = 13 := by
          simp [consumedBits, refusedMalformed, h1, h2]
        rw [hc] at hpos
        exact ⟨_, s.dec.window, hpos, .inr (.inr ⟨_, s.freeIdx, .inr rfl, fun _ h => h, e⟩)⟩
      · have hr : refusedMalformed s.cfg.malformed (.newWindow lead s6 m) = false := by
          rcases h1 with h1 | h1 <;> simp [refusedMalformed, h1]
        have hc : consumedBits s.cfg.malformed s.dec.window (.record (.newWindow lead s6 m))
            = 13 + sigCount s6 := by
          simp [consumedBits, hr, recordLength]
        rw [hc] at hpos
        refine ⟨_, newRecordWindow lead s6, hpos, ?_⟩
        rcases takeDelta_cases m
            { s with dec := { s.dec with pos := s.dec.pos + (13 + sigCount s6), lead := lead,
                                         trail := (newRecordWindow lead s6).trail } } with ⟨_, e'⟩ | ⟨h, e'⟩
        · exact .inr (.inl ⟨.inr ⟨lead, s6, rfl, h1⟩, e.trans e'⟩)
        · exact .inl ⟨_, .inr h, .inr ⟨lead, s6, rfl, h1⟩, e.trans e'⟩

end Sys2Proof.Machine
end

