-- ==== Sys2Proof/Laws/Packer.lean ====
section
/-! SUPPORT. What the bit packer can do: PutBit, PutBits and PadToByte append bits to the stream, keep
the packer's form, write nothing else, and fault exactly where OUT has no room. -/

namespace Sys2Proof.Machine

/-- `e'` differs from `e` in the packer's registers alone. -/
abbrev Enc.OnlyPacker (e e' : Enc) : Prop :=
  e' = { e with out := e'.out, pend := e'.pend, pcnt := e'.pcnt }

theorem Enc.OnlyPacker.trans {a b c : Enc} (h : a.OnlyPacker b) (h' : b.OnlyPacker c) : a.OnlyPacker c := by
  rw [Enc.OnlyPacker] at *; rw [h', h]

theorem bitsOf_snoc (v : Word) (n : Nat) : bitsOf v (n + 1) = bitsOf (v >>> 1) n ++ [v.getLsbD 0] := by
  induction n with
  | zero => rfl
  | succ n ih =>
    rw [bitsOf_succ, ih, bitsOf_succ]
    simp [BitVec.getLsbD_ushiftRight, Nat.add_comm]

/-- The pending byte after one more bit. -/
theorem pendShift_getLsbD (p : Byte) (b : Bool) (i : Nat) :
    ((p <<< 1) ||| (if b then 1#8 else 0#8)).getLsbD i
      = (decide (i < 8) && if i = 0 then b else p.getLsbD (i - 1)) := by
  have h1 : ∀ j, (if b then 1#8 else 0#8).getLsbD j = (b && decide (j = 0)) := by
    intro j; cases b <;> cases j <;> simp
  rw [BitVec.getLsbD_or, BitVec.getLsbD_shiftLeft, h1]
  cases i with
  | zero => simp
  | succ i => simp

theorem bitsOf_pendShift (p : Byte) (b : Bool) (n : Nat) (h : n < 8) :
    bitsOf (((p <<< 1) ||| (if b then 1#8 else 0#8)).setWidth 64) (n + 1) = bitsOf (p.setWidth 64) n ++ [b] := by
  rw [bitsOf_snoc]
  congr 1
  · apply bitsOf_congr
    intro i hi
    rw [BitVec.getLsbD_ushiftRight, BitVec.getLsbD_setWidth, BitVec.getLsbD_setWidth, pendShift_getLsbD]
    have h1 : 1 + i < 64 := by omega
    have h2 : i < 64 := by omega
    have h3 : 1 + i < 8 := by omega
    have h4 : 1 + i ≠ 0 := by omega
    simp [h1, h2, h3]
  · rw [BitVec.getLsbD_setWidth, pendShift_getLsbD]; simp

theorem pendShift_lt (p : Byte) (b : Bool) (n : Nat) (h : p.toNat < 2 ^ n) :
    ((p <<< 1) ||| (if b then 1#8 else 0#8)).toNat < 2 ^ (n + 1) := by
  apply Nat.lt_pow_two_of_testBit
  intro i hi
  rw [BitVec.testBit_toNat, pendShift_getLsbD, if_neg (by omega)]
  have : p.getLsbD (i - 1) = false := by
    rw [← BitVec.testBit_toNat]
    exact Nat.testBit_lt_two_pow (Nat.lt_of_lt_of_le h (Nat.pow_le_pow_right (by decide) (by omega)))
  simp [this]

theorem Enc.Appended.refl {e : Enc} (h : e.Packed) : e.Appended e [] where
  stream := by simp
  packed := h
  size := by have := e.pcnt.isLt; simp; omega
  count := by have := e.pcnt.isLt; simp; omega
  kept := fun _ _ => rfl

theorem Enc.Appended.trans {a b c : Enc} {x y : List Bool} (h : a.Appended b x) (h' : b.Appended c y) :
    a.Appended c (x ++ y) where
  stream := by rw [h'.stream, h.stream, List.append_assoc]
  packed := h'.packed
  size := by rw [h'.size, h.size, h.count, List.length_append]; omega
  count := by rw [h'.count, h.count, List.length_append]; omega
  kept := fun i hi => by rw [h'.kept i (by rw [h.size]; omega), h.kept i hi]

theorem streamOf_append {bs : List Byte} (h : 1 ≤ bs.length) (b : Byte) :
    streamOf (bs ++ [b]) = streamOf bs ++ byteBits b := by
  rw [streamOf, streamOf, List.drop_append_of_le_length h]; simp

/-- PutBit: it appends the bit, or faults where the completed byte does not fit (20_memory.md R62). -/
theorem putBit_spec (cap : Option Nat) (b : Bool) {e : Enc} (h : e.Packed) :
    (putBit cap b e = none ∧ e.pcnt.toNat = 7 ∧ cap = some e.out.size) ∨
    (∃ e', putBit cap b e = some e' ∧ e.OnlyPacker e' ∧ e.Appended e' [b] ∧
      ¬ (e.pcnt.toNat = 7 ∧ cap = some e.out.size)) := by
  obtain ⟨hw, h1, hp⟩ := h
  unfold putBit
  simp only
  split
  · rename_i h7
    have h7' : e.pcnt.toNat = 7 := by omega
    split
    · rename_i hc; exact .inl ⟨rfl, h7', hc⟩
    · rename_i hc
      refine .inr ⟨_, rfl, rfl, ⟨?_, ⟨Memory.wf_push hw _, by simp, by simp⟩, ?_, ?_, ?_⟩, fun hh => hc hh.2⟩
      · simp only [Enc.bits, Memory.bytes_push]
        rw [streamOf_append (by simpa using h1), byteBits, bitsOf_pendShift _ _ 7 (by decide), h7']
        simp
      · simp [h7']
      · simp [h7']
      · intro a ha
        show (e.out.push _).read a = _
        rw [Memory.read_push hw, if_neg (by omega)]
  · rename_i h7
    have hlt : e.pcnt.toNat + 1 < 8 := by have := e.pcnt.isLt; omega
    have hc : (e.pcnt + 1#3).toNat = e.pcnt.toNat + 1 := by
      rw [BitVec.toNat_add]; simp; omega
    refine .inr ⟨_, rfl, rfl, ⟨?_, ⟨hw, h1, ?_⟩, ?_, ?_, fun _ _ => rfl⟩, fun hh => by omega⟩
    · simp only [Enc.bits, hc]
      rw [bitsOf_pendShift _ _ _ (by omega), List.append_assoc]
    · rw [hc]; exact pendShift_lt _ _ _ hp
    · simp; omega
    · simp [hc]; omega

theorem fitsCap_mono {cap : Option Nat} {m n : Nat} (h : fitsCap cap n = true) (hm : m ≤ n) :
    fitsCap cap m = true := by
  cases cap with
  | none => rfl
  | some c => simp only [fitsCap, decide_eq_true_eq] at h ⊢; omega

/-- With room for the bits, PutBits appends them (20_memory.md R63). -/
theorem putBits_room (cap : Option Nat) (v : Word) (n : Nat) {e : Enc} (h : e.Packed)
    (hr : e.HasRoom cap n) :
    ∃ e', putBits cap v n e = some e' ∧ e.OnlyPacker e' ∧ e.Appended e' (bitsOf v n) := by
  induction n generalizing e with
  | zero => exact ⟨e, rfl, rfl, .refl h⟩
  | succ n ih =>
    rcases putBit_spec cap (v.getLsbD n) h with ⟨_, h7, hc⟩ | ⟨e1, h1, hf1, ha1, _⟩
    · rw [Enc.HasRoom, hc, h7] at hr
      simp only [fitsCap, decide_eq_true_eq] at hr; omega
    · have hr1 : e1.HasRoom cap n := by
        have hc := ha1.count; have hs := ha1.size
        simp only [List.length_singleton] at hc hs
        rw [Enc.HasRoom] at hr ⊢
        exact fitsCap_mono hr (by omega)
      obtain ⟨e2, h2, hf2, ha2⟩ := ih ha1.packed hr1
      exact ⟨e2, by simp only [putBits, h1, h2], hf1.trans hf2, ha1.trans ha2⟩

/-- Whatever PutBits answers, it has appended the bits and nothing else. -/
theorem putBits_some {cap : Option Nat} {v : Word} {n : Nat} {e e' : Enc} (h : e.Packed)
    (hs : putBits cap v n e = some e') : e.OnlyPacker e' ∧ e.Appended e' (bitsOf v n) := by
  induction n generalizing e with
  | zero => simp only [putBits, Option.some.injEq] at hs; subst hs; exact ⟨rfl, .refl h⟩
  | succ n ih =>
    rcases putBit_spec cap (v.getLsbD n) h with ⟨h1, _⟩ | ⟨e1, h1, hf1, ha1, _⟩
    · simp [putBits, h1] at hs
    · simp only [putBits, h1] at hs
      obtain ⟨hf2, ha2⟩ := ih ha1.packed hs
      exact ⟨hf1.trans hf2, ha1.trans ha2⟩

/-- Without room for the bits, PutBits faults (60_exceptions.md R234). -/
theorem putBits_full (cap : Option Nat) (v : Word) (n : Nat) {e : Enc} (h : e.Packed)
    (hf : fitsCap cap e.out.size = true) (hr : ¬ e.HasRoom cap n) : putBits cap v n e = none := by
  induction n generalizing e with
  | zero =>
    exfalso; apply hr; rw [Enc.HasRoom]; have := e.pcnt.isLt
    exact fitsCap_mono hf (by omega)
  | succ n ih =>
    rcases putBit_spec cap (v.getLsbD n) h with ⟨h1, _⟩ | ⟨e1, h1, hf1, ha1, hn⟩
    · simp [putBits, h1]
    · have hc := ha1.count; have hs := ha1.size
      simp only [List.length_singleton] at hc hs
      simp only [putBits, h1]
      cases cap with
      | none => exact absurd rfl hr
      | some c =>
        simp only [fitsCap, decide_eq_true_eq, Enc.HasRoom, Option.some.injEq, not_and] at hf hr hn
        apply ih ha1.packed
        · simp only [fitsCap, decide_eq_true_eq]; have := e.pcnt.isLt; omega
        · simp only [Enc.HasRoom, fitsCap, decide_eq_true_eq]; omega

@[simp] theorem bitsOf_zeroWord (n : Nat) : bitsOf 0#64 n = List.replicate n false := by
  induction n with
  | zero => rfl
  | succ n ih => simp [ih, List.replicate_succ]

/-- The loop of PadToByte is PutBits of as many zeros as the byte lacks (20_memory.md R64). -/
theorem padLoop_eq (cap : Option Nat) (fuel : Nat) {e : Enc} (h : e.Packed)
    (hf : (8 - e.pcnt.toNat) % 8 ≤ fuel) :
    padLoop cap fuel e = putBits cap 0#64 ((8 - e.pcnt.toNat) % 8) e := by
  have hlt := e.pcnt.isLt
  induction fuel generalizing e with
  | zero =>
    have h0 : (8 - e.pcnt.toNat) % 8 = 0 := by omega
    rw [h0]; rfl
  | succ fuel ih =>
    unfold padLoop
    split
    · rename_i h0; simp [h0, putBits]
    · rename_i h0
      have hne : e.pcnt.toNat ≠ 0 := fun hh => h0 (BitVec.eq_of_toNat_eq hh)
      obtain ⟨k, hk⟩ : ∃ k, (8 - e.pcnt.toNat) % 8 = k + 1 := ⟨(8 - e.pcnt.toNat) % 8 - 1, by omega⟩
      rw [hk, putBits]
      simp only [BitVec.getLsbD_zero]
      rcases putBit_spec cap false h with ⟨h1, _⟩ | ⟨e1, h1, _, ha1, _⟩
      · simp [h1]
      · have hc := ha1.count
        simp only [List.length_singleton] at hc
        have hk1 : (8 - e1.pcnt.toNat) % 8 = k := by omega
        simp only [h1]
        rw [ih ha1.packed (by omega) e1.pcnt.isLt, hk1]

theorem padToByte_eq (cap : Option Nat) {e : Enc} (h : e.Packed) :
    padToByte cap e = putBits cap 0#64 ((8 - e.pcnt.toNat) % 8) e :=
  padLoop_eq cap 7 h (by omega)

end Sys2Proof.Machine
end

