-- ==== Sys2Proof/Laws/Encoder.lean ====
section
/-! SUPPORT. What the encoder's shared operations can do: a sequence of emissions appends its bits in
order, and faults exactly where they do not fit; then the records and the Write path. -/

namespace Sys2Proof.Machine

/-- `r` is the outcome of emitting the bits `bs` from `e`: with room they are appended and only the
packer's registers change, without room it is the fault. -/
structure Emit (cap : Option Nat) (e : Enc) (r : Option Enc) (bs : List Bool) : Prop where
  room : e.HasRoom cap bs.length → ∃ e', r = some e' ∧ e.OnlyPacker e' ∧ e.Appended e' bs
  full : fitsCap cap e.out.size = true → ¬ e.HasRoom cap bs.length → r = none

theorem Enc.Appended.room {cap : Option Nat} {e e' : Enc} {xs : List Bool} (h : e.Appended e' xs) (n : Nat) :
    e'.HasRoom cap n ↔ e.HasRoom cap (xs.length + n) := by
  have h1 := h.size; have h2 := h.count
  have h3 : e'.out.size + (e'.pcnt.toNat + n) / 8 = e.out.size + (e.pcnt.toNat + (xs.length + n)) / 8 := by
    omega
  rw [Enc.HasRoom, Enc.HasRoom, h3]

theorem Enc.HasRoom.mono {cap : Option Nat} {e : Enc} {m n : Nat} (h : e.HasRoom cap n) (hm : m ≤ n) :
    e.HasRoom cap m :=
  fitsCap_mono h (by have : (e.pcnt.toNat + m) / 8 ≤ (e.pcnt.toNat + n) / 8 := by omega
                     omega)

/-- After bits that had room, OUT is within its capacity. -/
theorem Enc.Appended.fits {cap : Option Nat} {e e' : Enc} {xs : List Bool} (h : e.Appended e' xs)
    (hr : e.HasRoom cap xs.length) : fitsCap cap e'.out.size = true := by
  rw [h.size]; exact hr

/-- Emissions in sequence. -/
theorem Emit.bind {cap : Option Nat} {e : Enc} {r : Option Enc} {xs ys : List Bool} {f : Enc → Option Enc}
    (h : Emit cap e r xs)
    (hf : ∀ e', r = some e' → e.OnlyPacker e' → e.Appended e' xs → Emit cap e' (f e') ys) :
    Emit cap e (r.bind f) (xs ++ ys) where
  room := fun hr => by
    rw [List.length_append] at hr
    obtain ⟨e1, h1, o1, a1⟩ := h.room (hr.mono (Nat.le_add_right _ _))
    obtain ⟨e2, h2, o2, a2⟩ := (hf e1 h1 o1 a1).room ((a1.room _).2 hr)
    exact ⟨e2, by rw [h1]; exact h2, o1.trans o2, a1.trans a2⟩
  full := fun hc hr => by
    rw [List.length_append] at hr
    by_cases hx : e.HasRoom cap xs.length
    · obtain ⟨e1, h1, o1, a1⟩ := h.room hx
      rw [h1]
      exact (hf e1 h1 o1 a1).full (a1.fits hx) (fun hy => hr ((a1.room _).1 hy))
    · rw [h.full hc hx]; rfl

theorem putBits_emit (cap : Option Nat) (v : Word) (n : Nat) {e : Enc} (h : e.Packed) :
    Emit cap e (putBits cap v n e) (bitsOf v n) where
  room := fun hr => putBits_room cap v n h (by simpa using hr)
  full := fun hc hr => putBits_full cap v n h hc (by simpa using hr)

theorem putBit_emit (cap : Option Nat) (b : Bool) {e : Enc} (h : e.Packed) :
    Emit cap e (putBit cap b e) [b] := by
  have h1 := putBits_emit cap (if b then 1#64 else 0#64) 1 h
  have h2 : putBits cap (if b then 1#64 else 0#64) 1 e = putBit cap b e := by
    have h3 : (if b then 1#64 else 0#64).getLsbD 0 = b := by cases b <;> rfl
    simp only [putBits, h3]
    cases putBit cap b e <;> rfl
  rw [h2] at h1
  cases b <;> exact h1

theorem padToByte_emit (cap : Option Nat) {e : Enc} (h : e.Packed) :
    Emit cap e (padToByte cap e) (List.replicate ((8 - e.pcnt.toNat) % 8) false) := by
  rw [padToByte_eq cap h, ← bitsOf_zeroWord]
  exact putBits_emit cap 0#64 _ h

/-- The REUSE branch (40_encoder.md R147). -/
theorem emitReuse_emit (cap : Option Nat) (d : Word) {e : Enc} (h : e.Packed) :
    Emit cap e (emitReuse cap d e)
      ([false] ++ bitsOf (d >>> e.trail.toNat) (64 - e.lead.toNat - e.trail.toNat)) := by
  apply (putBit_emit cap false h).bind
  intro e1 _ o1 a1
  have h1 : e1.trail = e.trail := by rw [o1]
  have h2 : e1.lead = e.lead := by rw [o1]
  exact putBits_emit cap _ _ a1.packed

/-- The NEW branch after its window is set (40_encoder.md R146). -/
theorem emitNew_emit (cap : Option Nat) (d : Word) (L T : Nat) {e : Enc} (h : e.Packed) :
    Emit cap { e with winValid := true, lead := BitVec.ofNat 5 L, trail := BitVec.ofNat 6 T }
      (emitNew cap d L T e)
      ([true] ++ (bitsOf (BitVec.ofNat 64 L) 5 ++ (bitsOf ((sigField (64 - L - T)).setWidth 64) 6
        ++ bitsOf (d >>> T) (64 - L - T)))) := by
  apply (putBit_emit cap true (e := { e with winValid := true, lead := _, trail := _ }) h).bind
  intro e1 _ _ a1
  apply (putBits_emit cap _ 5 a1.packed).bind
  intro e2 _ _ a2
  apply (putBits_emit cap _ 6 a2.packed).bind
  intro e3 _ _ a3
  exact putBits_emit cap _ _ a3.packed

/-- The encoder's registers once it has emitted a record: a NEW record sets the window (40_encoder.md
R146, R147). -/
def afterRecord : Record → Enc → Enc
  | .same, e => e
  | .reuse _, e => e
  | .newWindow lead s6 _, e =>
    { e with winValid := true, lead := lead, trail := (newRecordWindow lead s6).trail.setWidth 6 }

theorem setWidth_ofNat_lead {L : Nat} (h : L ≤ 31) : (BitVec.ofNat 5 L).setWidth 64 = BitVec.ofNat 64 L := by
  apply BitVec.eq_of_toNat_eq
  simp only [BitVec.toNat_setWidth, BitVec.toNat_ofNat]; omega

theorem ofNat_lead_toNat {L : Nat} (h : L ≤ 31) : (BitVec.ofNat 5 L).toNat = L := by
  simp only [BitVec.toNat_ofNat]; omega

/-- The window of the NEW record of a nonzero delta is its clamped leading and its trailing count. -/
theorem chosen_trail {L T : Nat} (hL : L ≤ 31) (h : L + T ≤ 63) :
    (newRecordWindow (BitVec.ofNat 5 L) (sigField (64 - L - T))).trail.toNat = T := by
  rw [newRecordWindow_trail, sigCount_sigField (by omega) (by omega), ofNat_lead_toNat hL, if_pos (by omega)]
  omega

theorem chosen_counts (p : LeadClamp) {d : Word} (h : d ≠ 0#64) :
    clampLead p (clz64 d) ≤ 31 ∧ clampLead p (clz64 d) + ctz64 d ≤ 63 := by
  have h1 := clz64_add_ctz64 h
  have h2 := clampLead_le p (clz64 d)
  omega

theorem enc_windowWidth {e : Enc} (h : e.lead.toNat + e.trail.toNat ≤ 63) :
    windowWidth e.window = 64 - e.lead.toNat - e.trail.toNat := by
  have h1 : (e.trail.setWidth 64).toNat = e.trail.toNat := by
    rw [BitVec.toNat_setWidth]; have := e.trail.isLt; omega
  rw [windowWidth_legal (W := e.window) (by simp only [Enc.window, h1]; omega)]
  simp only [Enc.window, h1]

/-- The record of a delta: the bits of the chosen record, and the registers it leaves (40_encoder.md R144
to R147). -/
theorem emitRecord_emit (cfg : Config) (w : Word) {e : Enc} (h : e.Packed)
    (hw : e.winValid = true → e.lead.toNat + e.trail.toNat ≤ 63) :
    Emit cfg.outCap (afterRecord (chosenRecord cfg w e) e) (emitRecord cfg (w ^^^ e.prev) e)
      (encodeRecord e.window (chosenRecord cfg w e)) := by
  unfold emitRecord chosenRecord
  simp only
  split
  · exact putBit_emit _ _ h
  · rename_i hd
    obtain ⟨hL, hLT⟩ := chosen_counts cfg.leadClamp hd
    have hre : ∀ e1 : Enc, e.OnlyPacker e1 →
        reusesWindow (clampLead cfg.leadClamp (clz64 (w ^^^ e.prev))) (ctz64 (w ^^^ e.prev)) e1
          = reusesWindow (clampLead cfg.leadClamp (clz64 (w ^^^ e.prev))) (ctz64 (w ^^^ e.prev)) e := by
      intro e1 o1; rw [o1]; rfl
    split
    · rename_i hr
      have hv : e.winValid = true := by simp only [reusesWindow, Bool.and_eq_true] at hr; exact hr.1.1
      have hwd := enc_windowWidth (hw hv)
      refine Emit.bind (xs := [true])
        (ys := [false] ++ bitsOf ((w ^^^ e.prev) >>> e.trail.toNat) (windowWidth e.window)) (putBit_emit _ _ h) ?_
      intro e1 _ o1 a1
      rw [hre e1 o1, if_pos hr, hwd]
      have := emitReuse_emit cfg.outCap (w ^^^ e.prev) a1.packed
      rw [show e1.trail = e.trail by rw [o1]; rfl, show e1.lead = e.lead by rw [o1]; rfl] at this
      exact this
    · rename_i hr
      have ht := chosen_trail hL hLT
      have htr : (newRecordWindow (BitVec.ofNat 5 (clampLead cfg.leadClamp (clz64 (w ^^^ e.prev))))
          (sigField (64 - clampLead cfg.leadClamp (clz64 (w ^^^ e.prev)) - ctz64 (w ^^^ e.prev)))).trail.setWidth 6
          = BitVec.ofNat 6 (ctz64 (w ^^^ e.prev)) := by
        apply BitVec.eq_of_toNat_eq
        rw [BitVec.toNat_setWidth, ht, BitVec.toNat_ofNat]
      simp only [afterRecord, encodeRecord, htr, setWidth_ofNat_lead hL, sigCount_sigField (S := 64 - _ - _)
        (by omega : 1 ≤ 64 - clampLead cfg.leadClamp (clz64 (w ^^^ e.prev)) - ctz64 (w ^^^ e.prev)) (by omega)]
      generalize hLe : clampLead cfg.leadClamp (clz64 (w ^^^ e.prev)) = L at *
      generalize hTe : ctz64 (w ^^^ e.prev) = T at *
      generalize w ^^^ e.prev = d at *
      have key : ∀ e1 : Enc, e.OnlyPacker e1 → e.Appended e1 [true] →
          Emit cfg.outCap { e1 with winValid := true, lead := BitVec.ofNat 5 L, trail := BitVec.ofNat 6 T }
            (if reusesWindow L T e1 = true then emitReuse cfg.outCap d e1 else emitNew cfg.outCap d L T e1)
            ([true] ++ (bitsOf (BitVec.ofNat 64 L) 5 ++ (bitsOf ((sigField (64 - L - T)).setWidth 64) 6
              ++ bitsOf (d >>> T) (64 - L - T)))) := by
        intro e1 o1 a1
        rw [hre e1 o1, if_neg hr]
        exact emitNew_emit cfg.outCap d L T a1.packed
      have hb := putBit_emit cfg.outCap true h
      constructor
      · intro hroom
        have hroom' : e.HasRoom cfg.outCap (1 + (1 + (5 + (6 + (64 - L - T))))) := by
          refine Enc.HasRoom.mono (n := _) hroom ?_
          simp only [List.length_append, List.length_cons, List.length_nil, bitsOf_length]; omega
        obtain ⟨e1, h1, o1, a1⟩ := hb.room (hroom'.mono (by simp))
        obtain ⟨e2, h2, o2, a2⟩ := (key e1 o1 a1).room (by
          have := (a1.room (cap := cfg.outCap) (1 + (5 + (6 + (64 - L - T))))).2 hroom'
          refine Enc.HasRoom.mono (e := { e1 with winValid := _, lead := _, trail := _ }) this ?_
          simp only [List.length_append, List.length_cons, List.length_nil, bitsOf_length]; omega)
        refine ⟨e2, by rw [h1]; exact h2, ?_, ?_⟩
        · rw [Enc.OnlyPacker] at o1 o2 ⊢; rw [o2, o1]
        · have a1' : Enc.Appended { e with winValid := true, lead := BitVec.ofNat 5 L, trail := BitVec.ofNat 6 T }
              { e1 with winValid := true, lead := BitVec.ofNat 5 L, trail := BitVec.ofNat 6 T } [true] :=
            ⟨a1.stream, a1.packed, a1.size, a1.count, a1.kept⟩
          have := a1'.trans a2
          simpa using this
      · intro hc hroom
        by_cases hx : e.HasRoom cfg.outCap 1
        · obtain ⟨e1, h1, o1, a1⟩ := hb.room (by simpa using hx)
          rw [h1]
          apply (key e1 o1 a1).full (a1.fits (by simpa using hx))
          intro hy
          apply hroom
          have := (a1.room (cap := cfg.outCap) _).1 hy
          refine Enc.HasRoom.mono (e := { e with winValid := _, lead := _, trail := _ }) this ?_
          simp only [List.length_append, List.length_cons, List.length_nil, bitsOf_length]; omega
        · rw [hb.full hc (by simpa using hx)]; rfl

/-- What an accepted write leaves in the registers besides the packer's (40_encoder.md R143, R148). -/
def afterWrite (cfg : Config) (w : Word) (e : Enc) : Enc :=
  if e.first then { e with prev := w, first := false }
  else { afterRecord (chosenRecord cfg w e) e with prev := w }

/-- The Write path of a value that is not rejected: all it can do (40_encoder.md R140). -/
theorem writePath_emit (cfg : Config) (w : Word) (bypass : Bool) {e : Enc} (h : e.Packed)
    (hw : e.winValid = true → e.lead.toNat + e.trail.toNat ≤ 63) (ha : rejectsWrite w bypass e = false) :
    Emit cfg.outCap (afterWrite cfg w e) (writePath cfg w bypass e) (writeBits cfg w e) := by
  unfold writePath afterWrite writeBits
  rw [ha]
  simp only [Bool.false_eq_true, if_false]
  split
  · exact putBits_emit (e := { e with prev := w, first := false }) cfg.outCap w 64 h
  · have hb := emitRecord_emit cfg w h hw
    constructor
    · intro hr
      obtain ⟨e1, h1, o1, a1⟩ := hb.room hr
      refine ⟨{ e1 with prev := w }, by rw [h1]; rfl, ?_, ⟨a1.stream, a1.packed, a1.size, a1.count, a1.kept⟩⟩
      rw [Enc.OnlyPacker] at o1 ⊢; rw [o1]
    · intro hc hr
      rw [hb.full hc hr]; rfl

/-- The registers around the packer do not matter to what has been appended. -/
theorem afterWrite_out (cfg : Config) (w : Word) (e : Enc) :
    (afterWrite cfg w e).out = e.out ∧ (afterWrite cfg w e).pend = e.pend ∧ (afterWrite cfg w e).pcnt = e.pcnt := by
  unfold afterWrite
  split
  · exact ⟨rfl, rfl, rfl⟩
  · cases chosenRecord cfg w e <;> exact ⟨rfl, rfl, rfl⟩

/-- Appending depends on the packer's registers alone. -/
theorem Enc.Appended.of_packer {e e0 e' : Enc} {bs : List Bool} (h : e0.Appended e' bs) (ho : e0.out = e.out)
    (hp : e0.pend = e.pend) (hc : e0.pcnt = e.pcnt) : e.Appended e' bs where
  stream := by rw [h.stream, Enc.bits, Enc.bits, ho, hp, hc]
  packed := h.packed
  size := by rw [h.size, ho, hc]
  count := by rw [h.count, hc]
  kept := fun a ha => by rw [← ho]; exact h.kept a (by rw [ho]; exact ha)

/-- The Write path of a value that is not rejected, with room (40_encoder.md R140). -/
theorem writePath_room {cfg : Config} {w : Word} {bypass : Bool} {e : Enc} (h : e.Packed)
    (hw : e.winValid = true → e.lead.toNat + e.trail.toNat ≤ 63) (ha : rejectsWrite w bypass e = false)
    (hr : e.HasRoom cfg.outCap (writeBits cfg w e).length) :
    ∃ e', writePath cfg w bypass e = some e' ∧ (afterWrite cfg w e).OnlyPacker e' ∧
      e.Appended e' (writeBits cfg w e) := by
  obtain ⟨o1, o2, o3⟩ := afterWrite_out cfg w e
  obtain ⟨e', h1, hp, hA⟩ := (writePath_emit cfg w bypass h hw ha).room (by rw [Enc.HasRoom, o1, o3]; exact hr)
  exact ⟨e', h1, hp, hA.of_packer o1 o2 o3⟩

/-- The Write path of a value that is not rejected, without room (60_exceptions.md R234). -/
theorem writePath_full {cfg : Config} {w : Word} {bypass : Bool} {e : Enc} (h : e.Packed)
    (hw : e.winValid = true → e.lead.toNat + e.trail.toNat ≤ 63) (ha : rejectsWrite w bypass e = false)
    (hf : fitsCap cfg.outCap e.out.size = true) (hr : ¬ e.HasRoom cfg.outCap (writeBits cfg w e).length) :
    writePath cfg w bypass e = none := by
  obtain ⟨o1, _, o3⟩ := afterWrite_out cfg w e
  exact (writePath_emit cfg w bypass h hw ha).full (by rw [o1]; exact hf)
    (by rw [Enc.HasRoom, o1, o3]; exact hr)

/-- The registers an accepted write always or never writes (40_encoder.md R143). -/
theorem afterWrite_fields (cfg : Config) (w : Word) (e : Enc) :
    (afterWrite cfg w e).prev = w ∧ (afterWrite cfg w e).first = false ∧ (afterWrite cfg w e).err = e.err ∧
    (afterWrite cfg w e).finished = e.finished := by
  unfold afterWrite
  split
  · exact ⟨rfl, rfl, rfl, rfl⟩
  · rename_i h
    cases chosenRecord cfg w e <;> simp [afterRecord] <;> simpa using h

/-- An accepted write that succeeds: everything it can do (40_encoder.md R140). -/
theorem writePath_some {cfg : Config} {w : Word} {bypass : Bool} {e e' : Enc} (h : e.Packed)
    (hw : e.winValid = true → e.lead.toNat + e.trail.toNat ≤ 63) (ha : rejectsWrite w bypass e = false)
    (hf : fitsCap cfg.outCap e.out.size = true) (hs : writePath cfg w bypass e = some e') :
    (afterWrite cfg w e).OnlyPacker e' ∧ e.Appended e' (writeBits cfg w e) ∧
      fitsCap cfg.outCap e'.out.size = true := by
  by_cases hr : e.HasRoom cfg.outCap (writeBits cfg w e).length
  · obtain ⟨e1, h1, o1, a1⟩ := writePath_room h hw ha hr
    rw [h1] at hs; cases hs
    exact ⟨o1, a1, a1.fits hr⟩
  · rw [writePath_full h hw ha hf hr] at hs; cases hs

/-- The finalization of a stream: everything it can do (40_encoder.md R150). -/
theorem finalize_emit {cfg : Config} {e : Enc} (h : e.Packed)
    (hw : e.winValid = true → e.lead.toNat + e.trail.toNat ≤ 63) :
    Emit cfg.outCap { afterWrite cfg cfg.sentinel e with finished := true } (finalize cfg e) (flushBits cfg e) := by
  have ha : rejectsWrite cfg.sentinel true e = false := by simp [rejectsWrite]
  have hlen : (flushBits cfg e).length = (writeBits cfg cfg.sentinel e).length
      + (8 - (e.pcnt.toNat + (writeBits cfg cfg.sentinel e).length) % 8) % 8 := by simp [flushBits]
  obtain ⟨p1, p2, p3⟩ := afterWrite_out cfg cfg.sentinel e
  constructor
  · intro hr
    rw [Enc.HasRoom] at hr
    simp only [p1, p3] at hr
    rw [hlen] at hr
    obtain ⟨e1, h1, o1, a1⟩ := writePath_room h hw ha (Enc.HasRoom.mono (e := e) hr (by omega))
    obtain ⟨e2, h2, o2, a2⟩ := (padToByte_emit cfg.outCap a1.packed).room
      (by rw [a1.room, List.length_replicate, a1.count]; exact hr)
    have a3 := a1.trans a2
    rw [a1.count] at a3
    refine ⟨{ e2 with finished := true }, by unfold finalize; rw [h1, Option.bind_some, h2]; rfl, ?_,
      Enc.Appended.of_packer (e0 := e)
        ⟨a3.stream, a3.packed, a3.size, a3.count, a3.kept⟩ p1.symm p2.symm p3.symm⟩
    rw [Enc.OnlyPacker] at *
    rw [o2, o1]
  · intro hf hr
    rw [Enc.HasRoom] at hr
    simp only [p1, p3] at hf hr
    rw [hlen] at hr
    by_cases h0 : e.HasRoom cfg.outCap (writeBits cfg cfg.sentinel e).length
    · obtain ⟨e1, h1, _, a1⟩ := writePath_room h hw ha h0
      have h2 := (padToByte_emit cfg.outCap a1.packed).full (a1.fits h0)
        (by rw [a1.room, List.length_replicate, a1.count]; exact hr)
      unfold finalize
      rw [h1, Option.bind_some, h2]; rfl
    · unfold finalize
      rw [writePath_full h hw ha hf h0]; rfl

/-- A finalization that succeeds: everything it can do (40_encoder.md R150). -/
theorem finalize_some {cfg : Config} {e e' : Enc} (h : e.Packed)
    (hw : e.winValid = true → e.lead.toNat + e.trail.toNat ≤ 63) (hf : fitsCap cfg.outCap e.out.size = true)
    (hs : finalize cfg e = some e') :
    Enc.OnlyPacker { afterWrite cfg cfg.sentinel e with finished := true } e' ∧
      e.Appended e' (flushBits cfg e) ∧ fitsCap cfg.outCap e'.out.size = true := by
  obtain ⟨p1, p2, p3⟩ := afterWrite_out cfg cfg.sentinel e
  have hE := finalize_emit (cfg := cfg) h hw
  by_cases hr : e.HasRoom cfg.outCap (flushBits cfg e).length
  · obtain ⟨e1, h1, o1, a1⟩ := hE.room (by rw [Enc.HasRoom]; simp only [p1, p3]; exact hr)
    rw [h1] at hs; cases hs
    have a2 := a1.of_packer p1 p2 p3
    exact ⟨o1, a2, a2.fits hr⟩
  · rw [hE.full (by simp only [p1]; exact hf) (by rw [Enc.HasRoom]; simp only [p1, p3]; exact hr)] at hs
    cases hs

end Sys2Proof.Machine
end

