-- ==== Sys2Proof/Laws/Exec.lean ====
section
/-! SUPPORT. What a command that answers a next state has done, one lemma per command that can stop. -/

namespace Sys2Proof.Machine

theorem encOutcome_next {s t : State} {r : Option Enc} (h : encOutcome s r = .next t) :
    ∃ e, r = some e ∧ t = { s with enc := e } := by
  cases r with
  | none => cases h
  | some e => cases h; exact ⟨e, rfl, rfl⟩

/-- ENC_WRITE ran the Write path (40_encoder.md R140). -/
theorem exec_encWrite_next {s t : State} {w : Word} (h : exec (.encWrite w) s = .next t) :
    ∃ e, writePath s.cfg w false s.enc = some e ∧ t = { s with enc := e } :=
  encOutcome_next h

/-- ENC_FLUSH did nothing on a finalized stream, and finalized any other (40_encoder.md R150, R151). -/
theorem exec_encFlush_next {s t : State} (h : exec .encFlush s = .next t) :
    (s.enc.finished = true ∧ t = s) ∨
    (s.enc.finished = false ∧ ∃ e, finalize s.cfg s.enc = some e ∧ t = { s with enc := e }) := by
  have h : execEncFlush s = .next t := h
  unfold execEncFlush at h
  split at h
  · rename_i hf; cases h; exact .inl ⟨hf, rfl⟩
  · rename_i hf; exact .inr ⟨by simpa using hf, encOutcome_next h⟩

/-- DEC_SETBYTES accepted an input that fits (41_decoder.md R180, 60_exceptions.md R235). -/
theorem exec_decSetbytes_next {s t : State} {ibuf : List Byte} (h : exec (.decSetbytes ibuf) s = .next t) :
    fitsCap s.cfg.inCap ibuf.length = true ∧ t = setBytes ibuf s := by
  have h : execDecSetbytes ibuf s = .next t := h
  unfold execDecSetbytes at h
  split at h
  · rename_i hf; cases h; exact ⟨hf, rfl⟩
  · cases h

/-- DEC_NEXT always answers a next state (41_decoder.md R190). -/
theorem exec_decNext (s : State) : exec .decNext s = .next (afterChecks s nextRecord) := rfl

end Sys2Proof.Machine
end

