-- ==== Sys2Proof/Laws/PerInstr.lean ====
section
/-! SUPPORT. One family of lemmas over every instruction: its code has the format and the length of its
row of the opcode table. -/

open Sys2Proof Sys2Proof.Machine

/-- An encoded record has as many bits as the record (30_encoding.md R103 to R105). -/
theorem Sys2Proof.Laws.encodeRecord_bits (W : Window) (r : Record) :
    (encodeRecord W r).length = recordLength W r := by
  cases r <;> simp [encodeRecord, recordLength] <;> omega

/-- The code of `i` is of the format its row names, and a wire code has the length of its format
(30_encoding.md R101 to R105, R114, R115). -/
def Sys2Proof.Laws.EncodedFormat.Statement (i : Instr) : Prop :=
  ∀ W : Window,
    match encode W i with
    | .port (.enc _ _) => onEncPort i = true ∧ onDecPort i = false
    | .port (.dec _ _) => onDecPort i = true ∧ onEncPort i = false
    | .byte0 b => i = .header b
    | .seedBits bits => bits.length = 64 ∧ ∃ v, i = .seed v
    | .recordBits bits => ∃ r : Record, i = r.toInstr ∧ bits.length = recordLength W r

theorem Sys2Proof.Laws.EncodedFormat.encWrite (wdata : Word) :
    Sys2Proof.Laws.EncodedFormat.Statement (.encWrite wdata) := fun _ => ⟨rfl, rfl⟩

theorem Sys2Proof.Laws.EncodedFormat.encFlush :
    Sys2Proof.Laws.EncodedFormat.Statement .encFlush := fun _ => ⟨rfl, rfl⟩

theorem Sys2Proof.Laws.EncodedFormat.encBytes :
    Sys2Proof.Laws.EncodedFormat.Statement .encBytes := fun _ => ⟨rfl, rfl⟩

theorem Sys2Proof.Laws.EncodedFormat.encReset :
    Sys2Proof.Laws.EncodedFormat.Statement .encReset := fun _ => ⟨rfl, rfl⟩

theorem Sys2Proof.Laws.EncodedFormat.decSetbytes (ibuf : List Byte) :
    Sys2Proof.Laws.EncodedFormat.Statement (.decSetbytes ibuf) := fun _ => ⟨rfl, rfl⟩

theorem Sys2Proof.Laws.EncodedFormat.decNext :
    Sys2Proof.Laws.EncodedFormat.Statement .decNext := fun _ => ⟨rfl, rfl⟩

theorem Sys2Proof.Laws.EncodedFormat.decValue :
    Sys2Proof.Laws.EncodedFormat.Statement .decValue := fun _ => ⟨rfl, rfl⟩

theorem Sys2Proof.Laws.EncodedFormat.decError :
    Sys2Proof.Laws.EncodedFormat.Statement .decError := fun _ => ⟨rfl, rfl⟩

theorem Sys2Proof.Laws.EncodedFormat.header (b : Byte) :
    Sys2Proof.Laws.EncodedFormat.Statement (.header b) := fun _ => rfl

theorem Sys2Proof.Laws.EncodedFormat.seed (v : Word) :
    Sys2Proof.Laws.EncodedFormat.Statement (.seed v) := fun _ => ⟨bitsOf_length v 64, v, rfl⟩

theorem Sys2Proof.Laws.EncodedFormat.same :
    Sys2Proof.Laws.EncodedFormat.Statement .same :=
  fun W => ⟨.same, rfl, Sys2Proof.Laws.encodeRecord_bits W _⟩

theorem Sys2Proof.Laws.EncodedFormat.reuse (m : Word) :
    Sys2Proof.Laws.EncodedFormat.Statement (.reuse m) :=
  fun W => ⟨.reuse m, rfl, Sys2Proof.Laws.encodeRecord_bits W _⟩

theorem Sys2Proof.Laws.EncodedFormat.newWindow (lead : BitVec 5) (s6 : BitVec 6) (m : Word) :
    Sys2Proof.Laws.EncodedFormat.Statement (.newWindow lead s6 m) :=
  fun W => ⟨.newWindow lead s6 m, rfl, Sys2Proof.Laws.encodeRecord_bits W _⟩
end

