-- ==== Sys2Proof/Tests/Slice0.lean ====
section
/-! SUPPORT. Tests: the checks of WellFormed, words written out from the spec's encodings, one step on
small states from 95_test_vectors.md, and for every statement with hypotheses a case that meets them. -/

namespace Sys2Proof.Tests

open Sys2Proof Sys2Proof.Machine

/-! ## The checks of WellFormed refuse ill-formed terms -/

theorem test_sentinelMustBeNaN : Config.wf { Config.default with sentinel := 0x7FF0000000000000#64 } = false := by decide
theorem test_outCapBelowNine : Config.wf { Config.default with outCap := some 8 } = false := by decide
theorem test_inCapBelowNine : Config.wf { Config.default with inCap := some 8 } = false := by decide
theorem test_defaultIsLegal : Config.wf { Config.default with outCap := some 9, inCap := some 9 } = true := by decide

/-- The default configuration with an input capacity of 9 bytes. -/
def cap9 : Config := { Config.default with inCap := some 9 }

/-- The decoder's window after DEC_SETBYTES. -/
def noWindow : Window := ⟨0#5, 0#64⟩

theorem test_inputTooLong : Instr.wf cap9 noWindow (.decSetbytes (List.replicate 10 0#8)) = false := by decide
theorem test_reuseWidthZero : Instr.wf cap9 ⟨0#5, 64#64⟩ (.reuse 0#64) = false := by decide
theorem test_reuseWidthOver64 : Instr.wf cap9 ⟨0#5, 0xFFFFFFFFFFFFFFFF#64⟩ (.reuse 0#64) = false := by decide
theorem test_reuseBitsTooWide : Instr.wf cap9 ⟨31#5, 24#64⟩ (.reuse 0x200#64) = false := by decide
theorem test_newOver64 : Instr.wf cap9 noWindow (.newWindow 31#5 0#6 0#64) = false := by decide
theorem test_newBitsTooWide : Instr.wf cap9 noWindow (.newWindow 12#5 1#6 2#64) = false := by decide
theorem test_newAtTheLimit : Instr.wf cap9 noWindow (.newWindow 31#5 33#6 0x1FFFFFFFF#64) = true := by decide

/-! ## Words written out from the spec's encodings (30_encoding.md R101 to R105, R114, R115) -/

theorem test_decodeEncWrite : decodePort (.enc 0b00#2 0x40091EB851EB851F#64) = .encWrite 0x40091EB851EB851F#64 := by decide
theorem test_decodeEncFlush : decodePort (.enc 0b01#2 5#64) = .encFlush := by decide
theorem test_decodeEncBytes : decodePort (.enc 0b10#2 5#64) = .encBytes := by decide
theorem test_decodeEncReset : decodePort (.enc 0b11#2 5#64) = .encReset := by decide
theorem test_decodeDecSetbytes : decodePort (.dec 0b00#2 [0x10#8]) = .decSetbytes [0x10#8] := by decide
theorem test_decodeDecNext : decodePort (.dec 0b01#2 [0x10#8]) = .decNext := by decide
theorem test_decodeDecValue : decodePort (.dec 0b10#2 []) = .decValue := by decide
theorem test_decodeDecError : decodePort (.dec 0b11#2 []) = .decError := by decide
theorem test_decodeHeader : decode .error noWindow (.byte0 0xFF#8) = .ok (.header 0xFF#8) := by rfl

/-- Whether a code decodes to an instruction. -/
def decodesAs (c : Code) (i : Instr) : Bool :=
  match decode .error noWindow c with
  | .ok j => j == i
  | .error _ => false

/-- The seed of E3. -/
theorem test_decodeSeed : decodesAs (.seedBits
    ([false, true, false, false, false, false, false, false, false, false, false, false, true, false, false, true]
    ++ [false, false, false, true, true, true, true, false, true, false, true, true, true, false, false, false]
    ++ [false, true, false, true, false, false, false, true, true, true, true, false, true, false, true, true]
    ++ [true, false, false, false, false, true, false, true, false, false, false, true, true, true, true, true]))
    (.seed 0x40091EB851EB851F#64) = true := by decide +kernel
theorem test_decodeSeedShort : decode .error noWindow (.seedBits [true]) = .error .seedLength := by rfl

theorem test_decodeSame : decode .error noWindow (.recordBits [false]) = .ok .same := by rfl

/-- The REUSE record of V-ENC-6: window (31, 24), `n = 9`, `m = 3`. -/
theorem test_decodeReuse : decode .error ⟨31#5, 24#64⟩ (.recordBits
    [true, false, false, false, false, false, false, false, false, true, true]) = .ok (.reuse 3#64) := by rfl

/-- The NEW record of V-BY-2: `11 01100 000001 1`. -/
theorem test_decodeNew : decode .error noWindow (.recordBits
    [true, true, false, true, true, false, false, false, false, false, false, false, true, true])
    = .ok (.newWindow 12#5 1#6 1#64) := by rfl

theorem test_decodeCutRecord : decode .error noWindow (.recordBits [true]) = .error .recordTruncated := by rfl
theorem test_decodeTrailingBits : decode .error noWindow (.recordBits [false, false]) = .error .trailingBits := by rfl

/-- The malformed prefix of V-DEC-8. -/
theorem test_decodeMalformed : decode .error noWindow (.recordBits
    [true, true, true, true, true, true, true, false, false, false, false, false, false])
    = .error .malformedNew := by rfl

theorem test_decodeTableWord : decodeTableWord 8 1 = some .encFlush ∧ decodeTableWord 8 3 = some .encReset := by decide
theorem test_stepRunsTableWord : ∃ t, step (State.reset.withFetchWord 8 2) = .next t ∧ t.res.obuf = [0x10#8] :=
  ⟨_, rfl, rfl⟩

/-! ## Small states -/

/-- 1.0. -/
def one : Word := 0x3FF0000000000000#64

/-- The bytes of a buffer that holds the seed 1.0. -/
def oneBytes : List Byte := [0x10#8, 0x3F#8, 0xF0#8, 0#8, 0#8, 0#8, 0#8, 0#8, 0#8]

/-- The encoder after WRITE 1.0. -/
def seeded (cfg : Config) : State :=
  { State.powerOn cfg with
    enc := { Enc.powerOn cfg with prev := one, first := false, out := Memory.ofBytes oneBytes } }

/-- The encoder after WRITE 1.0, WRITE 1.5 (V-BY-2). -/
def windowed (cfg : Config) : State :=
  { State.powerOn cfg with
    enc := { Enc.powerOn cfg with
      prev := 0x3FF8000000000000#64, first := false, winValid := true, lead := 12#5, trail := 51#6,
      out := Memory.ofBytes (oneBytes ++ [0xD8#8]), pend := 3#8, pcnt := 6#3 } }

/-- The encoder after WRITE 1.0, FLUSH (V-ENC-12). -/
def flushed (cfg : Config) : State :=
  { State.powerOn cfg with
    enc := { Enc.powerOn cfg with
      prev := cfg.sentinel, first := false, finished := true, winValid := true, lead := 1#5, trail := 0#6,
      out := Memory.ofBytes (oneBytes
        ++ [0xC3#8, 0xFC#8, 0x00#8, 0x80#8, 0x00#8, 0x00#8, 0x00#8, 0x00#8, 0x00#8, 0x10#8]) } }

/-- The decoder of a session on these bytes, its value 1.0 returned, the cursor at the first record. -/
def decoding (cfg : Config) (bytes : List Byte) : State :=
  { State.powerOn cfg with
    dec := { Dec.powerOn cfg with
      cur := one, first := false, inp := Memory.ofBytes bytes, hasStream := true, pos := 64,
      lim := 8 * (bytes.length - 1) }
    gotValue := true, inputInUse := true }

/-- The decoder right after an accepted DEC_SETBYTES of the buffer that holds the seed 1.0. -/
def seedPending : State :=
  { decoding Config.default oneBytes with
    dec := { (decoding Config.default oneBytes).dec with first := true }, gotValue := false }

/-- The decoder after an error. -/
def failed : State :=
  { decoding Config.default oneBytes with
    dec := { (decoding Config.default oneBytes).dec with err := .truncatedStream }, inputInUse := false }

/-- The default parameters with no room after 9 bytes. -/
def out9 : Config := { Config.default with outCap := some 9 }

/-- The default parameters with `go_wrap`. -/
def wrap : Config := { Config.default with malformed := .goWrap }

/-- A property of the state a command leaves; false where it does not complete. -/
def after (i : Instr) (s : State) (p : State → Bool) : Bool :=
  match exec i s with
  | .next t => p t
  | .fault _ => false
  | .refused _ => false

/-- The parts of the invariant make the invariant. -/
theorem inv_of {s : State} (h1 : s.cfg.wf = true) (h2 : s.enc.Inv s.cfg)
    (h3 : s.dec.Inv s.cfg s.gotValue s.inputInUse) : s.Inv := ⟨h1, h2, h3⟩

/-! ## One step, expected results from 95_test_vectors.md -/

/-- V-ENC-8: the clamped NEW record `11 11111 001010 0000000001`. -/
theorem test_encWriteClampedNew : after (.encWrite 0x3FF0000000800000#64) (seeded Config.default) (fun t =>
    t.enc.out.bytes == oneBytes ++ [0xFE#8, 0x50#8] && t.enc.pend == 1#8 && t.enc.pcnt == 7#3
      && t.enc.lead == 31#5 && t.enc.trail == 23#6 && t.enc.winValid) = true := by decide

/-- V-ENC-12: a NaN after FLUSH, the REUSE record `10` and 63 bits. -/
theorem test_encWriteNaNAfterFlush : after (.encWrite 0x7FF8000000000000#64) (flushed Config.default) (fun t =>
    t.enc.out.bytes.drop 19 == [0x80#8, 0x00#8, 0x00#8, 0x00#8, 0x00#8, 0x00#8, 0x00#8, 0x00#8] && t.enc.pend == 1#8
      && t.enc.pcnt == 1#3 && t.enc.err == .none) = true := by decide

/-- V-BY-4: the END record after 1.5, `11 00001 111111` and the 63 bits of 0x4000000000000001, then padding. -/
theorem test_encFlushEnd : after .encFlush (windowed Config.default) (fun t =>
    t.enc.lead == 1#5 && t.enc.trail == 0#6 && t.enc.pcnt == 0#3 && t.enc.out.size == 21
      && t.enc.out.bytes.drop 10 == [0x0F#8, 0x0F#8, 0xF0#8, 0x00#8, 0x00#8, 0x00#8, 0x00#8, 0x00#8, 0x00#8, 0x00#8, 0x40#8])
    = true := by decide

/-- V-FL-1. -/
theorem test_encFlushEmpty : after .encFlush State.reset (fun t =>
    t.enc.out.bytes == [0x10#8, 0x7F#8, 0xF8#8, 0x00#8, 0x00#8, 0x00#8, 0x00#8, 0x00#8, 0x01#8]
      && !t.enc.winValid && !t.enc.first && t.enc.finished) = true := by decide

/-- V-BY-2. -/
theorem test_encBytesPadded : after .encBytes (windowed Config.default) (fun t =>
    t.res.obuf == oneBytes ++ [0xD8#8, 0x0C#8] && t.enc == (windowed Config.default).enc) = true := by decide

/-- V-BY-3. -/
theorem test_encBytesCompleteOnly : after .encBytes (windowed { Config.default with preflushTail := .completeOnly })
    (fun t => t.res.obuf == oneBytes ++ [0xD8#8]) = true := by decide

/-- V-RS-1. -/
theorem test_encReset : after .encReset (windowed Config.default) (fun t => t.enc == State.reset.enc) = true := by decide

/-- V-SB-3: 8 bytes hold no seed. -/
theorem test_decSetbytesEightBytes : after (.decSetbytes (oneBytes.take 8)) State.reset (fun t =>
    !t.res.ok && t.dec.err == .truncatedStream && t.dec.pos == 0) = true := by decide

/-- V-BIT-5. -/
theorem test_decSetbytesSeed : after (.decSetbytes [0x10#8, 0xA5#8, 0#8, 0#8, 0#8, 0#8, 0#8, 0#8, 1#8]) failed (fun t =>
    t.res.ok && t.dec.cur == 0xA500000000000001#64 && t.dec.pos == 64 && t.dec.lim == 64 && t.dec.err == .none)
    = true := by decide +kernel

/-- V-DEC-4: cut inside the significant bits. -/
theorem test_decNextCut : after .decNext (decoding Config.default (oneBytes ++ [0xFE#8, 0x50#8])) (fun t =>
    !t.res.avail && t.dec.err == .truncatedStream && t.dec.pos == 77 && t.dec.cur == one) = true := by decide

/-- V-DEC-11: NEW L=12 S=1 m=1 gives 1.5. -/
theorem test_decNextNew : after .decNext (decoding Config.default (oneBytes ++ [0xD8#8, 0x0C#8])) (fun t =>
    t.res.avail && t.dec.cur == 0x3FF8000000000000#64 && t.dec.lead == 12#5 && t.dec.trail == 51#64 && t.dec.pos == 78)
    = true := by decide

/-- V-VAL-3. -/
theorem test_decValue : after .decValue failed (fun t => t.res.rdata == one && t.dec == failed.dec) = true := by decide

/-- V-ERR-2. -/
theorem test_decError : after .decError failed (fun t => t.res.rerr == 2#2) = true := by decide

/-- V-SB-6: the header byte is not checked. -/
theorem test_header : after (.header 0xFF#8) { State.reset with dec := { State.reset.dec with inp := Memory.ofBytes oneBytes } }
    (fun t => t.dec.hasStream && t.dec.lim == 64 && t.dec.pos == 0) = true := by decide

/-- V-SB-5: a session restarted after an error. -/
theorem test_seed : after (.seed one) failed (fun t =>
    t.dec.cur == one && t.dec.pos == 64 && t.dec.first && t.dec.err == .none && t.res.ok) = true := by decide

/-- V-DEC-10: a zero bit is a SAME record. -/
theorem test_same : after .same (decoding Config.default (oneBytes ++ [0#8])) (fun t =>
    t.res.avail && t.dec.cur == one && t.dec.pos == 65) = true := by decide

/-- V-DEC-5: the first REUSE record of 64 bits. -/
theorem test_reuse : after (.reuse 0x7FF0000000000000#64) (decoding Config.default oneBytes) (fun t =>
    t.res.avail && t.dec.cur == 0x4000000000000000#64 && t.dec.pos == 130) = true := by decide

/-- V-DEC-5's END, as a REUSE record against 1.0: the candidate is the sentinel and is not stored. -/
theorem test_reuseEnd : after (.reuse 0x4008000000000001#64) (decoding Config.default oneBytes) (fun t =>
    !t.res.avail && t.dec.finished && t.dec.cur == one && t.dec.err == .none) = true := by decide

/-- P2, row 4. -/
theorem test_newWindow : after (.newWindow 31#5 13#6 0xFF#64) (decoding Config.default oneBytes) (fun t =>
    t.res.avail && t.dec.cur == 0x3FF000000FF00000#64 && t.dec.lead == 31#5 && t.dec.trail == 20#64 && t.dec.pos == 90)
    = true := by decide

/-- V-DEC-8 under `go_wrap`. -/
theorem test_newWindowWraps : after (.newWindow 31#5 0#6 0xFFFFFFFFFFFFFFFF#64) (decoding wrap oneBytes) (fun t =>
    t.res.avail && t.dec.cur == one && t.dec.trail.toNat == 2 ^ 64 - 31 && t.dec.pos == 141) = true := by decide

/-! ## Cases that meet the hypotheses of the statements -/

/-- A command that leaves a state with a property answers that state. -/
theorem next_of_after {i : Instr} {s : State} {p : State → Bool} (h : after i s p = true) :
    ∃ t, exec i s = .next t ∧ p t = true := by
  unfold after at h
  split at h
  · rename_i t ht; exact ⟨t, ht, h⟩
  · cases h
  · cases h

/-- A command that leaves any state completes. -/
theorem completes {i : Instr} {s : State} (h : after i s (fun _ => true) = true) : ∃ t, exec i s = .next t :=
  (next_of_after h).imp fun _ ht => ht.1

/-- 70_reset_and_hazards.md R266, R273: a failed DEC_SETBYTES starts a session, and the first DEC_NEXT that
returns 0 ends it. -/
theorem test_failedSetbytesHoldsInput :
    after (.decSetbytes [0x10#8]) State.reset (fun t => t.inputInUse && after .decNext t (fun u => !u.inputInUse))
      = true := by decide

theorem witness_DecodeInvertsEncode : Instr.wf cap9 ⟨31#5, 24#64⟩ (.reuse 0x1FF#64) = true
    ∧ Instr.wf cap9 noWindow (.newWindow 0#5 0#6 0xFFFFFFFFFFFFFFFF#64) = true
    ∧ Record.readable .goWrap noWindow (.newWindow 31#5 34#6 0x3FFFFFFFF#64) = true := by decide

theorem witness_RecordReadIsSelfDelimiting :
    Record.readable .error noWindow (.newWindow 31#5 33#6 0x1FFFFFFFF#64) = true
    ∧ Record.readable .error noWindow (.reuse 0xFFFFFFFFFFFFFFFF#64) = true
    ∧ Record.readable .goWrap noWindow (.newWindow 31#5 0#6 0xFFFFFFFFFFFFFFFF#64) = true := by decide

theorem witness_DecodedRecordReencodes : 1 ≤ windowWidth ⟨0#5, 63#64⟩ ∧ windowWidth ⟨0#5, 63#64⟩ ≤ 64
    ∧ decode .error ⟨0#5, 63#64⟩ (.recordBits [true, false, true]) = .ok (.reuse 1#64) := ⟨by decide, by decide, rfl⟩

theorem witness_EveryLongStringStartsWithRecord : 1 ≤ windowWidth noWindow ∧ windowWidth noWindow ≤ 64
    ∧ 77 ≤ (List.replicate 77 true).length := by decide

theorem witness_StepRunsIssuedCommand :
    ∃ p rest, (State.reset.withFetchWord 8 3).inbox = .command p :: rest := ⟨_, _, rfl⟩

/-- The host issues two commands at once. -/
def issuing (p q : PortWord) : State := { State.reset with inbox := [.together p q] }

theorem witness_SimultaneousCommands :
    (∃ p q rest, (issuing (.enc 1#2 0#64) (.dec 1#2 [])).inbox = .together p q :: rest ∧ p.unit ≠ q.unit) ∧
    (∃ p q rest, (issuing (.dec 1#2 []) (.dec 2#2 [])).inbox = .together p q :: rest ∧ p.unit = q.unit) :=
  ⟨⟨_, _, _, rfl, by decide⟩, ⟨_, _, _, rfl, rfl⟩⟩

/-- A session on a buffer that the host has changed, read in place or not. -/
def changing (inPlace : Bool) : State :=
  { decoding { Config.default with inPlace := inPlace } oneBytes with inbox := [.changeInput] }

/-- Nothing waiting; a change with DEC's own copy, after the session, and during it. -/
theorem witness_IdleBlockKeepsState : State.reset.inbox = [] ∧
    ((changing false).inbox = .changeInput :: [] ∧ (changing false).cfg.inPlace = false) ∧
    ({ changing true with inputInUse := false }.inbox = .changeInput :: []) ∧
    ((changing true).inbox = .changeInput :: [] ∧ (changing true).cfg.inPlace = true ∧
      (changing true).inputInUse = true) := ⟨rfl, ⟨rfl, rfl⟩, rfl, rfl, rfl, rfl⟩

/-- V-BY-2's record, and V-DEC-8's malformed one under `go_wrap`. -/
theorem witness_DecNextRunsRecordAtCursor :
    (let s := decoding Config.default (oneBytes ++ [0xD8#8, 0x0C#8])
     s.dec.Attached ∧ Record.readable .error s.dec.window (.newWindow 12#5 1#6 1#64) = true ∧
     s.dec.rest = encodeRecord s.dec.window (.newWindow 12#5 1#6 1#64) ++ [false, false]) ∧
    (let s := decoding wrap (oneBytes ++ [0xFE#8, 0x07#8] ++ List.replicate 7 0xFF#8 ++ [0xF8#8])
     s.dec.Attached ∧ Record.readable .goWrap s.dec.window (.newWindow 31#5 0#6 0xFFFFFFFFFFFFFFFF#64) = true ∧
     s.dec.rest = encodeRecord s.dec.window (.newWindow 31#5 0#6 0xFFFFFFFFFFFFFFFF#64) ++ List.replicate 3 false) := by
  decide +kernel

theorem witness_SetbytesRunsHeaderAndSeed :
    fitsCap cap9.inCap ((oneBytes.drop 1).length + 1) = true ∧ 8 ≤ (oneBytes.drop 1).length := by decide

theorem witness_NaNWriteRejectedUntilFinished :
    (isNaN 0x7FF0000000000001#64 = true ∧ (seeded Config.default).enc.finished = false) ∧
    ((flushed Config.default).enc.Inv Config.default ∧ isNaN 0xFFFFFFFFFFFFFFFF#64 = true ∧
      (flushed Config.default).enc.finished = true ∧
      (flushed Config.default).enc.HasRoom Config.default.outCap
        (writeBits Config.default 0xFFFFFFFFFFFFFFFF#64 (flushed Config.default).enc).length) := by decide

theorem witness_RejectionDoesNotStopWrites :
    isNaN one = false ∧ ∃ t, exec (.encWrite one) (seeded Config.default) = .next t :=
  ⟨by decide, completes (by decide)⟩

theorem witness_FirstWriteIsSeed :
    let s := State.powerOn out9
    s.enc.Packed ∧ rejectsWrite one false s.enc = false ∧ s.enc.first = true ∧ s.enc.HasRoom out9.outCap 64 := by
  decide

theorem witness_RepeatedWriteIsSame :
    let s := seeded out9
    s.enc.Packed ∧ rejectsWrite one false s.enc = false ∧ s.enc.first = false ∧ one ^^^ s.enc.prev = 0#64 ∧
    s.enc.HasRoom out9.outCap 1 := by decide

theorem witness_FittingWriteReusesWindow :
    let s := windowed Config.default
    let d := one ^^^ s.enc.prev
    s.enc.Packed ∧ rejectsWrite one false s.enc = false ∧ s.enc.first = false ∧ d ≠ 0#64 ∧ s.enc.winValid = true ∧
    s.enc.lead.toNat ≤ clampLead .min (clz64 d) ∧ s.enc.trail.toNat ≤ ctz64 d ∧
    s.enc.HasRoom Config.default.outCap (2 + (64 - s.enc.lead.toNat - s.enc.trail.toNat)) := by decide

/-- A window that a small delta does not fit, and no window at all. -/
theorem witness_UnfittingWriteSetsWindow :
    (∀ s ∈ [windowed Config.default, seeded Config.default],
      let d := 0x3FF0000000000001#64 ^^^ s.enc.prev
      s.enc.Packed ∧ rejectsWrite 0x3FF0000000000001#64 false s.enc = false ∧ s.enc.first = false ∧ d ≠ 0#64 ∧
      ¬ (s.enc.winValid = true ∧ s.enc.lead.toNat ≤ clampLead .min (clz64 d) ∧ s.enc.trail.toNat ≤ ctz64 d) ∧
      s.enc.HasRoom Config.default.outCap (13 + (64 - clampLead .min (clz64 d) - ctz64 d))) := by decide

/-- With OUT full a SAME record still fits, a NEW record does not. -/
theorem witness_WriteFaultsWithoutRoom :
    let s := seeded out9
    s.enc.Inv out9 ∧ rejectsWrite one false s.enc = false ∧ rejectsWrite 0#64 false s.enc = false ∧
    s.enc.HasRoom out9.outCap (writeBits out9 one s.enc).length ∧
    ¬ s.enc.HasRoom out9.outCap (writeBits out9 0#64 s.enc).length := by decide

theorem witness_ZeroCountsLocateOuterBits : (0x8000000000000001#64 : Word) ≠ 0#64 := by decide

theorem witness_EncoderFieldRanges : (1#64 : Word) ≠ 0#64 ∧ (windowed Config.default).enc.Inv Config.default ∧
    reusesWindow 12 51 (windowed Config.default).enc = true := by decide

theorem witness_ChosenRecordCarriesValue :
    (windowed Config.default).enc.Inv Config.default ∧ (seeded Config.default).enc.Inv Config.default := by
  decide

theorem witness_FlushIsIdempotent : (flushed Config.default).enc.finished = true
    ∧ ∃ t, exec .encFlush (flushed Config.default) = .next t := ⟨rfl, completes (by decide)⟩

theorem witness_FlushOfEmptySession : (State.powerOn out9).Inv ∧ (State.powerOn out9).enc.first = true
    ∧ State.reset.Inv ∧ State.reset.enc.first = true ∧ State.reset.cfg = Config.default :=
  ⟨inv_of (by decide) (by decide) (by decide), rfl, inv_of (by decide) (by decide) (by decide), rfl, rfl⟩

theorem witness_EndRecordIsNeverSame : (seeded Config.default).Inv ∧ (seeded Config.default).enc.finished = false
    ∧ (seeded Config.default).enc.first = false :=
  ⟨inv_of (by decide) (by decide) (by decide), rfl, rfl⟩

/-- The encoder of V-ENC-4 before its FLUSH, its window (0, 0) fitting every delta. -/
def openWindow : State :=
  { seeded Config.default with enc := { (seeded Config.default).enc with
      prev := 0xBFF0000000000001#64, winValid := true } }

theorem witness_FlushFinalizesStream :
    ((seeded Config.default).enc.Inv Config.default ∧ (seeded Config.default).enc.finished = false ∧
      (seeded Config.default).enc.HasRoom Config.default.outCap
        (flushBits Config.default (seeded Config.default).enc).length) ∧
    ((seeded out9).enc.Inv out9 ∧ (seeded out9).enc.finished = false ∧
      ¬ (seeded out9).enc.HasRoom out9.outCap (flushBits out9 (seeded out9).enc).length) := by decide +kernel

/-- The window of the END record: none in an empty session, a fitting one, and one that is set. -/
theorem witness_FlushFinalizesStream_window :
    (State.reset.enc.Inv Config.default ∧ State.reset.enc.first = true) ∧
    (openWindow.enc.Inv Config.default ∧ reusesWindow 0 51 openWindow.enc = true ∧
      clz64 (Config.default.sentinel ^^^ openWindow.enc.prev) = 0 ∧
      ctz64 (Config.default.sentinel ^^^ openWindow.enc.prev) = 51) ∧
    ((windowed Config.default).enc.Inv Config.default ∧ (windowed Config.default).enc.first = false ∧
      Config.default.sentinel ^^^ (windowed Config.default).enc.prev ≠ 0#64 ∧
      reusesWindow (clampLead .min (clz64 (Config.default.sentinel ^^^ (windowed Config.default).enc.prev)))
        (ctz64 (Config.default.sentinel ^^^ (windowed Config.default).enc.prev)) (windowed Config.default).enc = false) :=
  ⟨by decide, by decide, by decide⟩

theorem witness_BytesReturnsStream :
    (windowed Config.default).enc.Packed ∧ 9 < (windowed Config.default).enc.out.size ∧
    (seeded Config.default).enc.Packed ∧ (seeded Config.default).enc.pcnt = 0#3 ∧
    (windowed Config.default).cfg.preflushTail = .padded ∧
    (windowed { Config.default with preflushTail := .completeOnly }).cfg.preflushTail = .completeOnly := by
  decide

theorem witness_BytesIsRepeatable : ∃ t, exec .encBytes (windowed Config.default) = .next t :=
  completes (by decide)

theorem witness_ReportedErrorTellsOfRejection : State.reset.cfg.outCap = none := rfl

theorem witness_LongInputStartsSession : fitsCap cap9.inCap oneBytes.length = true ∧ 9 ≤ oneBytes.length := by decide

theorem witness_ShortInputFails : ∀ n ∈ [1, 8], fitsCap cap9.inCap (oneBytes.take n).length = true
    ∧ 1 ≤ (oneBytes.take n).length ∧ (oneBytes.take n).length ≤ 8 := by decide

theorem witness_SetbytesRefusedOverCapacity : fitsCap cap9.inCap (0#8 :: oneBytes).length = false
    ∧ fitsCap cap9.inCap oneBytes.length = true := by decide

theorem witness_HeaderByteIsIgnored : fitsCap cap9.inCap ((oneBytes.drop 1).length + 1) = true := by decide

theorem witness_NextChecksTerminalThenSeed : failed.dec.err ≠ .none
    ∧ (seedPending.dec.err = .none ∧ seedPending.dec.finished = false ∧ seedPending.dec.first = true
      ∧ seedPending.dec.cur ≠ seedPending.cfg.sentinel)
    ∧ (State.reset.dec.first = true ∧ State.reset.dec.cur = State.reset.cfg.sentinel) := by decide

theorem witness_SameRecordKeepsValue :
    let s := decoding Config.default (oneBytes ++ [0x7F#8])
    s.dec.Attached ∧ s.dec.err = .none ∧ s.dec.finished = false ∧ s.dec.first = false ∧
    s.dec.rest = false :: List.replicate 7 true := by decide

/-- The decoder with the window (0, 63). -/
def oneBitWindow : State :=
  { decoding Config.default oneBytes with dec := { (decoding Config.default oneBytes).dec with trail := 63#64 } }

theorem witness_ReuseRecordAppliesDelta : oneBitWindow.dec.err = .none ∧ oneBitWindow.dec.finished = false
    ∧ oneBitWindow.dec.first = false ∧ oneBitWindow.dec.trail.toNat ≤ 63 := by decide

theorem witness_NewRecordSetsWindowAndAppliesDelta : oneBitWindow.dec.err = .none ∧ oneBitWindow.dec.finished = false
    ∧ oneBitWindow.dec.first = false ∧ (31#5).toNat + (33#6).toNat ≤ 64 := by decide

/-- `L + S = 65`, the smallest malformed sum. -/
theorem witness_MalformedRecordIsError :
    let s := decoding Config.default (oneBytes ++ [0xFF#8, 0x10#8])
    s.dec.Attached ∧ s.dec.err = .none ∧ s.dec.finished = false ∧ s.dec.first = false ∧ s.cfg.malformed = .error ∧
    64 < (31#5).toNat + sigCount 34#6 ∧
    s.dec.rest = [true, true] ++ bitsOf ((31#5).setWidth 64) 5 ++ bitsOf ((34#6).setWidth 64) 6 ++ [false, false, false]
    := by decide

theorem witness_MalformedRecordWraps :
    let s := decoding wrap oneBytes
    s.dec.err = .none ∧ s.dec.finished = false ∧ s.dec.first = false ∧ s.dec.cur ≠ s.cfg.sentinel ∧
    s.cfg.malformed = .goWrap ∧ 64 < (31#5).toNat + sigCount 34#6 ∧ 64 < (31#5).toNat + sigCount 0#6 := by
  decide

/-- A NEW record cut inside its significant bits, and a REUSE record cut before its first bit. -/
theorem witness_CutRecordTruncates :
    (let s := decoding Config.default (oneBytes ++ [0xFE#8, 0x50#8])
     s.dec.Attached ∧ s.dec.err = .none ∧ s.dec.finished = false ∧ s.dec.first = false ∧
     Record.readable .error s.dec.window (.newWindow 31#5 10#6 1#64) = true ∧
     16 < (encodeRecord s.dec.window (.newWindow 31#5 10#6 1#64)).length ∧
     s.dec.rest = (encodeRecord s.dec.window (.newWindow 31#5 10#6 1#64)).take 16) ∧
    (let s := decoding Config.default oneBytes
     s.dec.Attached ∧ s.dec.err = .none ∧ s.dec.finished = false ∧ s.dec.first = false ∧
     Record.readable .error s.dec.window (.reuse 1#64) = true ∧ 0 < (encodeRecord s.dec.window (.reuse 1#64)).length ∧
     s.dec.rest = (encodeRecord s.dec.window (.reuse 1#64)).take 0) := by decide

/-- Four bits past the seed, so that the unread bits are 12 of the 13 before the significant ones. -/
def cutInSig : State :=
  let s := decoding Config.default (oneBytes ++ [0x0F#8, 0xF1#8])
  { s with dec := { s.dec with pos := 68 } }

/-- `L = 31` with `s6` cut after `10001`, and a malformed record under `go_wrap` cut inside its significant
bits. -/
theorem witness_CutRecordTruncates_malformed :
    (cutInSig.dec.Attached ∧ cutInSig.dec.err = .none ∧ cutInSig.dec.finished = false ∧ cutInSig.dec.first = false ∧
     malformedNew 31#5 34#6 = true ∧
     cutInSig.dec.rest = (encodeRecord cutInSig.dec.window (.newWindow 31#5 34#6 0#64)).take 12) ∧
    (let s := decoding wrap (oneBytes ++ [0xFE#8, 0x07#8])
     s.dec.Attached ∧ s.dec.err = .none ∧ s.dec.finished = false ∧ s.dec.first = false ∧
     Record.readable .goWrap s.dec.window (.newWindow 31#5 0#6 0xE000000000000000#64) = true ∧
     16 < (encodeRecord s.dec.window (.newWindow 31#5 0#6 0xE000000000000000#64)).length ∧
     s.dec.rest = (encodeRecord s.dec.window (.newWindow 31#5 0#6 0xE000000000000000#64)).take 16) := by decide

theorem witness_TerminalDecoderStaysTerminal : terminal failed.dec = true := by decide

/-- The NaN 0x7FF8000000000000 as a seed, and as the candidate of a REUSE and of a NEW record against 1.0. -/
theorem witness_OtherNaNsAreOrdinaryValues :
    (let s := { seedPending with dec := { seedPending.dec with cur := 0x7FF8000000000000#64 } }
     s.dec.err = .none ∧ s.dec.finished = false ∧ s.dec.first = true ∧ isNaN s.dec.cur = true ∧
     s.dec.cur ≠ s.cfg.sentinel) ∧
    (let s := decoding Config.default (oneBytes ++ [0x90#8, 0x02#8, 0#8, 0#8, 0#8, 0#8, 0#8, 0#8, 0#8])
     s.dec.Attached ∧ s.dec.err = .none ∧ s.dec.finished = false ∧ s.dec.first = false ∧
     Record.readable .error s.dec.window (.reuse 0x4008000000000000#64) = true ∧
     s.dec.rest = encodeRecord s.dec.window (.reuse 0x4008000000000000#64) ++ List.replicate 6 false ∧
     0x7FF8000000000000#64 = s.dec.cur ^^^ deltaOf s.dec.trail 0x4008000000000000#64 ∧
     isNaN 0x7FF8000000000000#64 = true ∧ 0x7FF8000000000000#64 ≠ s.cfg.sentinel) ∧
    (let s := decoding Config.default (oneBytes ++ [0xC2#8, 0x64#8, 0x00#8, 0x80#8])
     s.dec.Attached ∧ s.dec.err = .none ∧ s.dec.finished = false ∧ s.dec.first = false ∧
     Record.readable .error s.dec.window (.newWindow 1#5 12#6 0x801#64) = true ∧
     s.dec.rest = encodeRecord s.dec.window (.newWindow 1#5 12#6 0x801#64) ++ List.replicate 7 false ∧
     0x7FF8000000000000#64 = s.dec.cur ^^^ deltaOf (newRecordWindow 1#5 12#6).trail 0x801#64) := by decide

theorem witness_ValueReadsCurrent : (decoding Config.default oneBytes).gotValue = true := rfl

theorem witness_ValueBeforeFirstIsFree : seedPending.gotValue = false := rfl

theorem witness_ErrorReadsCode : State.reset.dec.finished = false
    ∧ ∃ t, exec .decNext State.reset = .next t ∧ t.dec.finished = true := ⟨rfl, next_of_after (by decide)⟩

theorem witness_HeaderAndSeedStartStream : 1 ≤ (decoding Config.default [0xFF#8]).dec.inp.size := by decide

theorem witness_StreamBitsStandMsbFirst :
    ((windowed Config.default).enc.Packed ∧ 71 < 8 * ((windowed Config.default).enc.out.size - 1)) ∧
    (let d := (decoding Config.default (oneBytes ++ [0xFE#8, 0x50#8])).dec
     d.Attached ∧ d.pos + 15 < d.lim) := by decide

theorem witness_OutOnlyGrows : (windowed Config.default).enc.Packed
    ∧ ∃ t, exec (.encWrite one) (windowed Config.default) = .next t :=
  ⟨by decide, completes (by decide)⟩

theorem witness_InIsWrittenBySetbytesAlone :
    (∃ t, exec .decError failed = .next t) ∧ ∃ t, exec (.decSetbytes oneBytes) failed = .next t :=
  ⟨completes (by decide), completes (by decide)⟩

/-- The machine with both errors set. -/
def bothErrors : State := { failed with enc := { failed.enc with err := .unsupportedValue } }

theorem witness_ErrorsAreClearedOnlyByRestart :
    (onEncPort .encReset = true ∧ bothErrors.enc.err ≠ .none ∧
      ∃ t, exec .encReset bothErrors = .next t ∧ t.enc.err = .none) ∧
    (onDecPort (.decSetbytes []) = true ∧ bothErrors.dec.err ≠ .none ∧
      ∃ t, exec (.decSetbytes []) bothErrors = .next t ∧ t.dec.err = .none ∧ t.res.ok = true) ∧
    (∃ t, exec (.decSetbytes [0x10#8]) bothErrors = .next t ∧ t.res.ok = false) :=
  ⟨⟨rfl, by decide, _, rfl, rfl⟩, ⟨rfl, by decide, _, rfl, rfl, rfl⟩,
    (next_of_after (p := fun t => !t.res.ok) (by decide)).imp fun _ h => ⟨h.1, by simpa using h.2⟩⟩

theorem witness_ErrorsDoNotNest : bothErrors.enc.err = .unsupportedValue ∧ isNaN Config.default.sentinel = true
    ∧ bothErrors.enc.finished = false ∧ bothErrors.dec.err ≠ .none := by decide

/-- Whether a command faults. -/
def faults (i : Instr) (s : State) : Bool :=
  match exec i s with
  | .next _ => false
  | .fault _ => true
  | .refused _ => false

theorem witness_FaultsOnlyAtOutputCapacity : ∃ r, exec (.encWrite 0#64) (seeded out9) = .fault r := by
  have h : faults (.encWrite 0#64) (seeded out9) = true := by decide
  unfold faults at h
  split at h
  · cases h
  · rename_i r hr; exact ⟨r, hr⟩
  · cases h

theorem witness_StepRefusesOnlyProtocolViolations :
    (∃ r, step (issuing (.dec 1#2 []) (.dec 2#2 [])) = .refused r) ∧
    (∃ r, step { State.powerOn cap9 with inbox := [.command (.dec 0#2 (0#8 :: oneBytes))] } = .refused r) ∧
    (∃ r, step { State.powerOn cap9 with inbox := [.together (.dec 0#2 (0#8 :: oneBytes)) (.enc 1#2 0#64)] }
      = .refused r) ∧
    (∃ r, step (changing true) = .refused r) ∧
    (∃ t, exec (.decSetbytes [0x10#8]) failed = .next t) ∧ (∃ t, exec .decNext failed = .next t) ∧
    (∃ t, exec .decError failed = .next t) :=
  ⟨⟨_, rfl⟩, ⟨_, rfl⟩, ⟨_, rfl⟩, ⟨_, rfl⟩, completes (by decide), completes (by decide), completes (by decide)⟩

theorem witness_CommandsChangeTheirUnitAlone :
    (onEncPort .encBytes = true ∧ ∃ t, exec .encBytes failed = .next t) ∧
    (onEncPort .decNext = false ∧ ∃ t, exec .decNext failed = .next t) := 
  ⟨⟨rfl, completes (by decide)⟩, ⟨rfl, completes (by decide)⟩⟩

theorem witness_UnitsDoNotObserveEachOther : onEncPort .encReset = true ∧ onEncPort .decNext = false
    ∧ (∃ t, exec .encReset failed = .next t) ∧ ∃ t, exec .decNext failed = .next t := 
  ⟨rfl, rfl, completes (by decide), completes (by decide)⟩

theorem witness_EncoderPowerOnState : (seeded out9).cfg = out9 := rfl

theorem witness_DecoderPowerOnState : failed.cfg = Config.default := rfl

theorem witness_PowerOnMeetsInvariant : Config.wf out9 = true ∧ Config.wf cap9 = true := by decide

/-- A state of a session in progress, with a command issued, that meets the invariant. -/
theorem witness_StepKeepsInvariant :
    let s := { decoding Config.default (oneBytes ++ [0xD8#8, 0x0C#8]) with inbox := [.command (.dec 1#2 [])] }
    s.Inv ∧ ∃ t, step s = .next t :=
  ⟨inv_of (by decide) (by decide) (by decide), completes (i := .decNext) (by decide)⟩

theorem witness_EncodedSequenceDecodesExactly : State.reset.cfg.wf = true ∧ State.reset.cfg.outCap = none
    ∧ State.reset.cfg.inCap = none ∧ ∀ v ∈ [one, 0#64, 0x8000000000000000#64, 0xFFF0000000000000#64], isNaN v = false :=
  ⟨by decide, rfl, rfl, List.forall_mem_cons.2 ⟨by decide, List.forall_mem_cons.2 ⟨by decide,
    List.forall_mem_cons.2 ⟨by decide, List.forall_mem_singleton.2 (by decide)⟩⟩⟩⟩

end Sys2Proof.Tests
end

section
/-! PROOFS. The decoder at power-on (10_state.md R34). -/

namespace Sys2Proof.Machine

/-- An empty buffer fits every capacity. -/
@[simp] theorem fitsCap_zero (cap : Option Nat) : fitsCap cap 0 = true := by
  cases cap with
  | none => rfl
  | some c => simp [fitsCap]

/-- DEC_SETBYTES accepts every input that fits (41_decoder.md R180); the converse of
`exec_decSetbytes_next`. -/
theorem exec_decSetbytes_of_fits {s : State} {ibuf : List Byte}
    (h : fitsCap s.cfg.inCap ibuf.length = true) : exec (.decSetbytes ibuf) s = .next (setBytes ibuf s) :=
  if_pos h

/-- An empty input starts a session on the sentinel with no stream attached (41_decoder.md R181). -/
theorem setBytes_nil (s : State) : setBytes [] s = startSession s.cfg.sentinel
    { s with dec := { s.dec with inp := [], pos := 0, hasStream := false, lim := 0 } } := rfl

theorem exec_decSetbytes_nil (s : State) : exec (.decSetbytes []) s = .next (setBytes [] s) :=
  exec_decSetbytes_of_fits (fitsCap_zero s.cfg.inCap)

/-- Whatever DEC held before, an empty input brings it to power-on (10_state.md R34). -/
theorem setBytes_nil_dec (s : State) : (setBytes [] s).dec = Dec.powerOn s.cfg := by
  rw [setBytes_nil]; rfl

/-- A session whose seed is the sentinel ends at its first DEC_NEXT (41_decoder.md R191). -/
theorem exec_decNext_sentinelSeed {s : State} (he : s.dec.err = .none) (hf : s.dec.finished = false)
    (h1 : s.dec.first = true) (hc : s.dec.cur = s.cfg.sentinel) :
    exec .decNext s = .next { s with
      dec := { s.dec with first := false, finished := true }, res := { s.res with avail := false }
      inputInUse := false } := by
  rw [exec_decNext, afterChecks_first he hf h1]
  rcases seedStep_cases s with ⟨-, hs⟩ | ⟨hne, -⟩
  · rw [hs]
  · exact absurd hc hne

/-- Settles O57: the registers are read off the definition, an empty input restores them from any state of
the configuration, and the power-on seed is the sentinel, so that the first DEC_NEXT ends the session. -/
theorem decoderPowerOnState : Obligations.DecoderPowerOnState := by
  intro cfg
  refine ⟨rfl, fun s hs => ⟨setBytes [] s, exec_decSetbytes_nil s, ?_⟩,
    _, exec_decNext_sentinelSeed rfl rfl rfl rfl, rfl, rfl⟩
  calc (setBytes [] s).dec = Dec.powerOn s.cfg := setBytes_nil_dec s
    _ = (State.powerOn cfg).dec := by rw [hs]; rfl

end Sys2Proof.Machine
end

section
/-! PROOFS. The fields an encoder can produce, and what an accepted write after the first emits
(40_encoder.md R144 to R147, R161). -/

namespace Sys2Proof.Machine

/-! ### The clamp and the fields -/

/-- The five-bit mask loses multiples of 32 (40_encoder.md R145). -/
theorem clampLead_mask5 (x : Nat) : clampLead .mask5 x = x % 32 :=
  Nat.and_two_pow_sub_one_eq_mod x 5

theorem clampLead_min (x : Nat) : clampLead .min x = min x 31 := rfl

/-- A NEW record with counts that leave at least one significant bit is not malformed (30_encoding.md
R111). -/
theorem malformedNew_chosen {L T : Nat} (hL : L ≤ 31) (hLT : L + T ≤ 63) :
    malformedNew (BitVec.ofNat 5 L) (sigField (64 - L - T)) = false := by
  rw [malformedNew, sigCount_sigField (by omega) (by omega), ofNat_lead_toNat hL]
  exact decide_eq_false (by omega)

theorem reusesWindow_eq_true {L T : Nat} {e : Enc} :
    reusesWindow L T e = true ↔ e.winValid = true ∧ e.lead.toNat ≤ L ∧ e.trail.toNat ≤ T := by
  simp only [reusesWindow, Bool.and_eq_true, decide_eq_true_eq, and_assoc]

/-- Settles O19: a nonzero delta has counts of sum at most 63, and either clamp only lowers the leading
one. -/
theorem encoderFieldRanges : Obligations.EncoderFieldRanges := by
  intro cfg d e hd hInv L T S
  obtain ⟨-, -, -, -, hwin, -, -⟩ := hInv
  have hsum : clz64 d + ctz64 d ≤ 63 := clz64_add_ctz64 hd
  obtain ⟨hLle, hL⟩ : L ≤ clz64 d ∧ L ≤ 31 := clampLead_le cfg.leadClamp (clz64 d)
  have hT : T = ctz64 d := rfl
  have hS : S = 64 - L - T := rfl
  refine ⟨hsum, hLle, hL, by omega, by omega, by omega, by omega, by omega, ?min, ?mask5,
    malformedNew_chosen hL (by omega), sigCount_sigField (by omega) (by omega), ?reuse⟩
  case min =>
    intro hc
    have hmin : L = min (clz64 d) 31 := by rw [← clampLead_min, ← hc]
    omega
  case mask5 =>
    intro hc
    have hmask : L = clz64 d % 32 := by rw [← clampLead_mask5, ← hc]
    omega
  case reuse =>
    intro hr
    have hle := hwin (reusesWindow_eq_true.1 hr).1
    omega

/-! ### The Write path of a value after the first, one rule per record -/

/-- ENC_WRITE answers what the Write path leaves; the converse of `exec_encWrite_next`. -/
theorem exec_encWrite_of_some {s : State} {w : Word} {e : Enc}
    (h : writePath s.cfg w false s.enc = some e) : exec (.encWrite w) s = .next { s with enc := e } := by
  change encOutcome s (writePath s.cfg w false s.enc) = _
  rw [h]; rfl

/-- An accepted write after the first emits its record and remembers the value (40_encoder.md R140). -/
theorem writePath_of_record {cfg : Config} {w : Word} {bypass : Bool} {e e' : Enc}
    (ha : rejectsWrite w bypass e = false) (hf : e.first = false)
    (h : emitRecord cfg (w ^^^ e.prev) e = some e') :
    writePath cfg w bypass e = some { e' with prev := w } := by
  simp [writePath, ha, hf, h]

/-- A zero delta is the one bit 0 (40_encoder.md R144). -/
theorem emitRecord_zero (cfg : Config) (e : Enc) : emitRecord cfg 0#64 e = putBit cfg.outCap false e :=
  if_pos rfl

section
variable {cfg : Config} {d : Word} {L T : Nat} {e : Enc}

/-- A delta the window does not fit is the bit 1 and the rest of a NEW record (40_encoder.md R146). The
first bit leaves the window alone, so it does not matter that the choice is made after it. -/
theorem emitRecord_new (h : e.Packed) (hd : d ≠ 0#64) (hL : clampLead cfg.leadClamp (clz64 d) = L)
    (hT : ctz64 d = T) (hr : reusesWindow L T e = false) :
    emitRecord cfg d e = (putBit cfg.outCap true e).bind (emitNew cfg.outCap d L T) := by
  rw [emitRecord, if_neg hd, hL, hT]
  rcases putBit_spec cfg.outCap true h with ⟨hfault, -⟩ | ⟨e1, hput, ho, -⟩
  · rw [hfault]; rfl
  · have hr1 : reusesWindow L T e1 = false := by rw [ho]; exact hr
    simp [hput, hr1]

/-- With room, the NEW record's bits are appended and the window becomes the delta's (40_encoder.md R146);
the window before it may be any. -/
theorem emitRecord_new_room (h : e.Packed) (hd : d ≠ 0#64) (hL : clampLead cfg.leadClamp (clz64 d) = L)
    (hT : ctz64 d = T) (hr : reusesWindow L T e = false)
    (hroom : e.HasRoom cfg.outCap (13 + (64 - L - T))) :
    ∃ e', emitRecord cfg d e = some e' ∧
      e' = { e with winValid := true, lead := BitVec.ofNat 5 L, trail := BitVec.ofNat 6 T,
                    out := e'.out, pend := e'.pend, pcnt := e'.pcnt } ∧
      e.Appended e' ([true, true] ++ bitsOf (BitVec.ofNat 64 L) 5
        ++ bitsOf ((sigField (64 - L - T)).setWidth 64) 6 ++ bitsOf (d >>> T) (64 - L - T)) := by
  obtain ⟨e1, hput, ho1, ha1⟩ := (putBit_emit cfg.outCap true h).room (hroom.mono (by simp; omega))
  have hroom1 : e1.HasRoom cfg.outCap (12 + (64 - L - T)) :=
    (ha1.room _).2 (hroom.mono (by simp; omega))
  obtain ⟨e2, hnew, ho2, ha2⟩ := (emitNew_emit cfg.outCap d L T ha1.packed).room (hroom1.mono (by simp; omega))
  refine ⟨e2, ?_, ?_, ?_⟩
  · rw [emitRecord_new h hd hL hT hr, hput]; exact hnew
  · rw [Enc.OnlyPacker] at ho1 ho2; rw [ho2, ho1]
  · simpa using ha1.trans (ha2.of_packer (e := e1) rfl rfl rfl)

end

/-- The sigbits field as the reader of the stream sees it (30_encoding.md R108). -/
theorem sigField_setWidth {S : Nat} (h : S ≤ 64) :
    (sigField S).setWidth 64 = if S = 64 then 0#64 else BitVec.ofNat 64 S := by
  unfold sigField
  split
  · rfl
  · apply BitVec.eq_of_toNat_eq
    simp only [BitVec.toNat_setWidth, BitVec.toNat_ofNat]; omega

/-- Nothing is lost below a window whose trailing count the delta has (40_encoder.md R147). -/
theorem shiftRight_shiftLeft_of_le_ctz64 {d : Word} {T : Nat} (hd : d ≠ 0#64) (h : T ≤ ctz64 d) :
    (d >>> T) <<< T = d := by
  have hlt := ctz64_lt hd
  have ht : (BitVec.ofNat 64 T).toNat = T := by rw [BitVec.toNat_ofNat]; omega
  have hdelta := deltaOf_shift ht (by omega) fun i hi => ctz64_zero_below d i (by omega)
  rwa [deltaOf, ht, if_pos (by omega)] at hdelta

/-- A nonzero delta that fits the window is written as a REUSE record. -/
theorem chosenRecord_reuse {cfg : Config} {w : Word} {e : Enc} (hd : w ^^^ e.prev ≠ 0#64)
    (hr : reusesWindow (clampLead cfg.leadClamp (clz64 (w ^^^ e.prev))) (ctz64 (w ^^^ e.prev)) e = true) :
    chosenRecord cfg w e = .reuse ((w ^^^ e.prev) >>> e.trail.toNat) := by
  simp [chosenRecord, hd, hr]

/-- Settles O14: the delta is zero, so the record is the one bit 0 and the value remembered is the value
before. -/
theorem repeatedWriteIsSame : Obligations.RepeatedWriteIsSame := by
  intro s w hp ha hf hd hroom
  have hw : w = s.enc.prev := BitVec.xor_eq_zero_iff.1 hd
  obtain ⟨e1, hput, ho, happ⟩ := (putBit_emit s.cfg.outCap false hp).room hroom
  have hrec : emitRecord s.cfg (w ^^^ s.enc.prev) s.enc = some e1 := by
    rw [hd, emitRecord_zero, hput]
  have hprev : { e1 with prev := w } = e1 := by rw [hw, ho]
  have hwrite := writePath_of_record ha hf hrec
  rw [hprev] at hwrite
  exact ⟨e1, exec_encWrite_of_some hwrite, ho, happ⟩

/-- Settles O15: the record chosen is REUSE, which writes no register but the packer's. -/
theorem fittingWriteReusesWindow : Obligations.FittingWriteReusesWindow := by
  intro s w d n hp ha hf hd hv hlead htrail hroom
  refine ⟨(shiftRight_shiftLeft_of_le_ctz64 hd htrail).symm, ?_⟩
  obtain ⟨-, hsum⟩ := chosen_counts s.cfg.leadClamp hd
  have hlegal : s.enc.lead.toNat + s.enc.trail.toNat ≤ 63 := by omega
  have hrec := chosenRecord_reuse (cfg := s.cfg) hd (reusesWindow_eq_true.2 ⟨hv, hlead, htrail⟩)
  have hbits : writeBits s.cfg w s.enc = [true, false] ++ bitsOf (d >>> s.enc.trail.toNat) n := by
    simp only [writeBits, hf, hrec, encodeRecord, enc_windowWidth hlegal, Bool.false_eq_true, if_false]
    rfl
  have hafter : afterWrite s.cfg w s.enc = { s.enc with prev := w } := by
    simp only [afterWrite, hf, hrec, afterRecord, Bool.false_eq_true, if_false]
  obtain ⟨e, hwrite, ho, happ⟩ := writePath_room (cfg := s.cfg) (w := w) (bypass := false) hp (fun _ => hlegal) ha
    (by rw [hbits]; exact hroom.mono (by simp; omega))
  rw [hafter] at ho
  rw [hbits] at happ
  exact ⟨e, exec_encWrite_of_some hwrite, ho, happ⟩

/-- Settles O16: whatever window stood before, the NEW branch sets the delta's and emits its fields. -/
theorem unfittingWriteSetsWindow : Obligations.UnfittingWriteSetsWindow := by
  intro s w d L T S hp ha hf hd hfit hroom
  obtain ⟨hL, hsum⟩ : L ≤ 31 ∧ L + T ≤ 63 := chosen_counts s.cfg.leadClamp hd
  have hr : reusesWindow L T s.enc = false := Bool.eq_false_iff.2 fun hr => hfit (reusesWindow_eq_true.1 hr)
  obtain ⟨e1, hrec, hregs, happ⟩ := emitRecord_new_room hp hd rfl rfl hr hroom
  have hS : S ≤ 64 := by omega
  refine ⟨{ e1 with prev := w }, exec_encWrite_of_some (writePath_of_record ha hf hrec), ?_, ?_, ?_, ?_⟩
  · rw [hregs]
  · rw [hregs]; exact ofNat_lead_toNat hL
  · rw [hregs]; simp only [BitVec.toNat_ofNat]; omega
  · rw [← sigField_setWidth hS]
    exact ⟨happ.stream, happ.packed, happ.size, happ.count, happ.kept⟩

end Sys2Proof.Machine
end

section
/-! PROOFS. ENC_FLUSH, ENC_BYTES and ENC_RESET (40_encoder.md R151 to R153, R157, R158). -/

namespace Sys2Proof.Machine

/-! ### ENC_FLUSH -/

/-- A finalized stream is left as it is (40_encoder.md R151). -/
theorem exec_encFlush_finished {s : State} (h : s.enc.finished = true) : exec .encFlush s = .next s :=
  if_pos h

/-- An open stream is finalized (40_encoder.md R150). -/
theorem exec_encFlush_open {s : State} {e : Enc} (hf : s.enc.finished = false)
    (h : finalize s.cfg s.enc = some e) : exec .encFlush s = .next { s with enc := e } := by
  change execEncFlush s = _
  rw [execEncFlush, if_neg (by simp [hf]), h]; rfl

theorem finalize_finished {cfg : Config} {e e' : Enc} (h : finalize cfg e = some e') : e'.finished = true := by
  obtain ⟨e1, -, hpad⟩ := Option.bind_eq_some_iff.1 h
  obtain ⟨e2, -, rfl⟩ := Option.map_eq_some_iff.1 hpad
  rfl

/-- A flush that succeeds leaves a finalized stream. -/
theorem exec_encFlush_next_finished {s t : State} (h : exec .encFlush s = .next t) : t.enc.finished = true := by
  rcases exec_encFlush_next h with ⟨hf, rfl⟩ | ⟨-, e, hfin, rfl⟩
  · exact hf
  · exact finalize_finished hfin

/-- Settles O21: every flush that succeeds leaves a finalized stream, which a flush does not change. -/
theorem flushIsIdempotent : Obligations.FlushIsIdempotent :=
  ⟨fun _ => exec_encFlush_finished, fun _ _ h => exec_encFlush_finished (exec_encFlush_next_finished h)⟩

/-- With room, finalization appends the END record and the padding (40_encoder.md R150). -/
theorem finalize_room {cfg : Config} {e : Enc} (h : e.Packed)
    (hw : e.winValid = true → e.lead.toNat + e.trail.toNat ≤ 63)
    (hr : e.HasRoom cfg.outCap (flushBits cfg e).length) :
    ∃ e', finalize cfg e = some e' ∧
      Enc.OnlyPacker { afterWrite cfg cfg.sentinel e with finished := true } e' ∧
      e.Appended e' (flushBits cfg e) := by
  obtain ⟨hout, hpend, hpcnt⟩ := afterWrite_out cfg cfg.sentinel e
  obtain ⟨e', hfin, ho, happ⟩ := (finalize_emit (cfg := cfg) h hw).room
    (by rw [Enc.HasRoom]; simp only [hout, hpcnt]; exact hr)
  exact ⟨e', hfin, ho, happ.of_packer hout hpend hpcnt⟩

/-- A buffer is determined by its header byte and its stream: the 64 bits of a word stand as its eight
bytes (20_memory.md R61, R68). -/
theorem bytes_of_header_stream {m : Memory} {b : Byte} {w : Word} (hm : m.wf = true)
    (h0 : m.read 0 = some b) (hs : streamOf m.bytes = bitsOf w 64) : m.bytes = b :: bigEndian w := by
  rw [Memory.read_eq hm] at h0
  cases hb : m.bytes with
  | nil => rw [hb] at h0; cases h0
  | cons x xs =>
    rw [hb] at h0 hs
    have hx : x = b := by simpa using h0
    have hxs : xs = bigEndian w := flatMap_byteBits_inj (by rw [bigEndian_bits]; exact hs)
    rw [hx, hxs]

/-- An empty session holds no bits. -/
theorem Enc.bits_eq_nil_of_empty {e : Enc} (h1 : e.out.size = 1) (h2 : e.pcnt = 0#3) : e.bits = [] := by
  apply List.eq_nil_of_length_eq_zero
  simp [Enc.bits, h1, h2]

/-- The seed ends on a byte boundary, so an empty session needs no padding (40_encoder.md R152). -/
theorem flushBits_empty {cfg : Config} {e : Enc} (hf : e.first = true) (hc : e.pcnt = 0#3) :
    flushBits cfg e = bitsOf cfg.sentinel 64 := by
  simp [flushBits, writeBits, hf, hc]

/-- Every legal capacity holds the nine bytes of an empty stream (00_scope.md R7). -/
theorem fitsCap_nine {cfg : Config} (h : cfg.wf = true) : fitsCap cfg.outCap 9 = true := by
  simp only [Config.wf, Bool.and_eq_true] at h
  obtain ⟨⟨-, hcap⟩, -⟩ := h
  cases hc : cfg.outCap with
  | none => rfl
  | some c => rw [hc] at hcap; exact hcap

/-- Settles O22: the flush appends the sentinel's 64 bits to the header alone, which every legal capacity
holds; a stream on a byte boundary determines the bytes. -/
theorem flushOfEmptySession : Obligations.FlushOfEmptySession := by
  rintro s ⟨hcfg, ⟨hp, h0, -, -, hwin, hfirst, -⟩, -⟩ hf
  obtain ⟨hopen, -, hsize, hpcnt⟩ := hfirst hf
  have hbits : flushBits s.cfg s.enc = bitsOf s.cfg.sentinel 64 := flushBits_empty hf hpcnt
  have hroom : s.enc.HasRoom s.cfg.outCap (flushBits s.cfg s.enc).length := by
    rw [hbits, bitsOf_length, Enc.HasRoom, hsize, hpcnt]; exact fitsCap_nine hcfg
  obtain ⟨e, hfin, -, happ⟩ := finalize_room hp hwin hroom
  rw [hbits] at happ
  have hsize' : e.out.size = 9 := by rw [happ.size, hsize, hpcnt, bitsOf_length]; rfl
  have hpcnt' : e.pcnt = 0#3 := BitVec.eq_of_toNat_eq (by rw [happ.count, hpcnt, bitsOf_length]; rfl)
  have hstream : streamOf e.out.bytes = bitsOf s.cfg.sentinel 64 := by
    have hs := happ.stream
    rw [Enc.bits_eq_nil_of_empty hsize hpcnt, Enc.bits, hpcnt'] at hs
    simpa using hs
  have hheader : e.out.read 0 = some (headerByte s.cfg.headerId) := by
    rw [happ.kept 0 (by omega), h0]
  obtain ⟨hwf, -, -⟩ := happ.packed
  have hbytes := bytes_of_header_stream hwf hheader hstream
  refine ⟨e, exec_encFlush_open hopen hfin, hbytes, hsize', happ, hpcnt', finalize_finished hfin, fun hd => ?_⟩
  rw [hbytes, hd]; decide

/-- A nonzero delta is written as a REUSE or a NEW record (40_encoder.md R146). -/
theorem chosenRecord_windowed {cfg : Config} {w : Word} {e : Enc} (hd : w ^^^ e.prev ≠ 0#64) :
    (∃ m, chosenRecord cfg w e = .reuse m) ∨ (∃ lead s6 m, chosenRecord cfg w e = .newWindow lead s6 m) := by
  simp only [chosenRecord, if_neg hd]
  split
  · exact .inl ⟨_, rfl⟩
  · exact .inr ⟨_, _, _, rfl⟩

/-- A legal sentinel is a NaN (00_scope.md R7). -/
theorem isNaN_sentinel {cfg : Config} (h : cfg.wf = true) : isNaN cfg.sentinel = true := by
  simp only [Config.wf, Bool.and_eq_true] at h
  obtain ⟨⟨hnan, -⟩, -⟩ := h
  exact hnan

/-- Settles O23: before finalization the last value is no NaN and the sentinel is one, so their delta is
not zero. -/
theorem endRecordIsNeverSame : Obligations.EndRecordIsNeverSame := by
  rintro s ⟨hcfg, ⟨-, -, -, -, -, -, hprev⟩, -⟩ hopen hf
  have hnum : isNaN s.enc.prev = false := hprev hf hopen
  have hne : s.enc.prev ≠ s.cfg.sentinel := by
    intro heq
    rw [heq, isNaN_sentinel hcfg] at hnum
    cases hnum
  have hd : s.cfg.sentinel ^^^ s.enc.prev ≠ 0#64 := fun h0 => hne (BitVec.xor_eq_zero_iff.1 h0).symm
  exact ⟨hnum, hne, hd, chosenRecord_windowed hd⟩

/-! ### ENC_BYTES and ENC_RESET -/

/-- ENC_BYTES writes its result lines alone (40_encoder.md R155). -/
theorem exec_encBytes (s : State) : exec .encBytes s = .next { s with res := { s.res with
    obuf := s.enc.out.bytes ++ tailBytes s.cfg.preflushTail s.enc, oerr := s.enc.err.code } } := rfl

/-- A command that keeps a state keeps it however often it is repeated. -/
theorem runAll_replicate_of_fixed {i : Instr} {s : State} (h : exec i s = .next s) (n : Nat) :
    runAll (List.replicate n i) s = .next s := by
  induction n with
  | zero => rfl
  | succ n ih => simp only [List.replicate_succ, runAll, h, ih]

/-- Settles O26: the result depends on the encoder's registers, which ENC_BYTES does not write, so the state
it leaves is one it keeps. -/
theorem bytesIsRepeatable : Obligations.BytesIsRepeatable := by
  intro s t n h
  rw [exec_encBytes] at h
  cases h
  exact ⟨runAll_replicate_of_fixed (exec_encBytes _) n, rfl⟩

/-- Settles O28: the registers ENC_RESET writes are those of power-on, the header alone in OUT. -/
theorem resetRestoresPowerOn : Obligations.ResetRestoresPowerOn := fun _ => rfl

end Sys2Proof.Machine
end

section
/-! PROOFS. DEC_SETBYTES of an empty buffer, the checks of DEC_NEXT and DEC_ERROR (41_decoder.md R181,
R191, R202). -/

namespace Sys2Proof.Machine

/-- A terminal unit answers 0 and reads nothing (41_decoder.md R191). -/
theorem exec_decNext_terminal {s : State} (h : terminal s.dec = true) :
    exec .decNext s = .next { s with res := { s.res with avail := false }, inputInUse := false } := by
  rw [exec_decNext, afterChecks_terminal h]; rfl

/-- The seed step on the sentinel ends the stream (41_decoder.md R191). -/
theorem seedStep_of_end {s : State} (h : s.dec.cur = s.cfg.sentinel) : seedStep s =
    { s with dec := { s.dec with first := false, finished := true }, res := { s.res with avail := false },
             inputInUse := false } := by
  rcases seedStep_cases s with ⟨-, hs⟩ | ⟨hne, -⟩
  · exact hs
  · exact absurd h hne

/-- The seed step on any other seed returns it as the first value (41_decoder.md R191). -/
theorem seedStep_of_value {s : State} (h : s.dec.cur ≠ s.cfg.sentinel) : seedStep s =
    { s with dec := { s.dec with first := false }, res := { s.res with avail := true }, gotValue := true } := by
  rcases seedStep_cases s with ⟨heq, -⟩ | ⟨-, hs⟩
  · exact absurd heq h
  · exact hs

/-- A session whose seed is not the sentinel answers 1 at its first DEC_NEXT (41_decoder.md R191); the other
case is `exec_decNext_sentinelSeed`. -/
theorem exec_decNext_valueSeed {s : State} (he : s.dec.err = .none) (hf : s.dec.finished = false)
    (h1 : s.dec.first = true) (hc : s.dec.cur ≠ s.cfg.sentinel) :
    exec .decNext s = .next { s with
      dec := { s.dec with first := false }, res := { s.res with avail := true }, gotValue := true } := by
  rw [exec_decNext, afterChecks_first he hf h1, seedStep_of_value hc]

/-- Settles O29: the empty input restores power-on, whose seed is the sentinel. -/
theorem emptyInputIsEmptyStream : Obligations.EmptyInputIsEmptyStream := fun s =>
  ⟨setBytes [] s, exec_decSetbytes_nil s, rfl, exec_decNext_sentinelSeed rfl rfl rfl rfl⟩

/-- Settles O34: the terminal check comes first, and the seed step has one case for the sentinel and one for
every other seed. -/
theorem nextChecksTerminalThenSeed : Obligations.NextChecksTerminalThenSeed := by
  refine ⟨fun s h => exec_decNext_terminal (terminal_eq_true.2 h), fun s he hf h1 => ?_⟩
  by_cases hc : s.dec.cur = s.cfg.sentinel
  · rw [if_pos hc, exec_decNext_sentinelSeed he hf h1 hc]
  · rw [if_neg hc, exec_decNext_valueSeed he hf h1 hc]

/-- A DEC_NEXT that finds the end of the stream leaves no error (41_decoder.md R202). -/
theorem afterChecks_end_no_error {s : State} (hf : s.dec.finished = false)
    (ht : (afterChecks s nextRecord).dec.finished = true) : (afterChecks s nextRecord).dec.err = .none := by
  rcases afterChecks_cases s nextRecord with ⟨-, h⟩ | ⟨he, -, -, h⟩ | ⟨he, -, -, h⟩ <;> rw [h] at ht ⊢
  case inl => exact absurd (hf.symm.trans ht) Bool.false_ne_true
  case inr.inl =>
    rcases seedStep_cases s with ⟨-, hs⟩ | ⟨-, hs⟩ <;> rw [hs] <;> exact he
  case inr.inr =>
    obtain ⟨pos, W, -, ⟨c, -, -, hn⟩ | ⟨-, hn⟩ | ⟨k, idx, -, -, hn⟩⟩ := nextRecord_cases s
    · rw [hn]; exact he
    · rw [hn]; exact he
    · rw [hn] at ht; exact absurd (hf.symm.trans ht) Bool.false_ne_true

/-- Settles O45: the end is found by the seed step or by a record, neither of which raises an error. -/
theorem errorReadsCode : Obligations.ErrorReadsCode := by
  refine ⟨fun s => rfl, ⟨rfl, rfl, rfl, rfl⟩, fun s t h hf ht => ?_⟩
  rw [exec_decNext] at h
  cases h
  exact afterChecks_end_no_error hf ht

end Sys2Proof.Machine
end

section
/-! PROOFS. The record at the cursor (30_encoding.md R103 to R105, R110; 41_decoder.md R190, R192). -/

namespace Sys2Proof.Machine

/-! ### Reading a record's encoding back -/

/-- An encoded record is read back whole, whatever stands before and after it (30_encoding.md R110). -/
theorem readRecord_encodeRecord {policy : MalformedPolicy} {W : Window} {r : Record} {bits pre post : List Bool}
    (hr : r.readable policy W = true) (hb : bits = pre ++ (encodeRecord W r ++ post)) :
    readRecord (bitsGet bits) policy W pre.length = .record r := by
  cases r with
  | same =>
    have h1 : bitsGet bits pre.length 1 = some 0#64 := bitsGet_bit (b := false) (by simpa [encodeRecord] using hb) rfl
    simp [readRecord, h1]
  | reuse m =>
    simp only [Record.readable, Bool.and_eq_true, decide_eq_true_eq] at hr
    obtain ⟨-, hm⟩ := hr
    have h1 : bitsGet bits pre.length 1 = some 1#64 := bitsGet_bit (b := true) (by simpa [encodeRecord] using hb) rfl
    have h2 : bitsGet bits (pre.length + 1) 1 = some 0#64 :=
      bitsGet_bit (b := false) (pre := pre ++ [true]) (by simpa [encodeRecord] using hb) (by simp)
    have h3 : bitsGet bits (pre.length + 2) (windowWidth W) = some m :=
      bitsGet_field (pre := pre ++ [true, false]) (by simpa [encodeRecord] using hb) (by simp) hm
    simp [readRecord, h1, h2, h3]
  | newWindow lead s6 m =>
    simp only [Record.readable, Bool.and_eq_true, Bool.not_eq_true', decide_eq_true_eq] at hr
    obtain ⟨hok, hm⟩ := hr
    obtain ⟨hl, hlead⟩ := lead_roundTrip lead
    obtain ⟨hs, hsig⟩ := sig_roundTrip s6
    have h1 : bitsGet bits pre.length 1 = some 1#64 := bitsGet_bit (b := true) (by simpa [encodeRecord] using hb) rfl
    have h2 : bitsGet bits (pre.length + 1) 1 = some 1#64 :=
      bitsGet_bit (b := true) (pre := pre ++ [true]) (by simpa [encodeRecord] using hb) (by simp)
    have h3 : bitsGet bits (pre.length + 2) 5 = some (lead.setWidth 64) :=
      bitsGet_field (pre := pre ++ [true, true]) (by simpa [encodeRecord] using hb) (by simp) hl
    have h4 : bitsGet bits (pre.length + 7) 6 = some (s6.setWidth 64) :=
      bitsGet_field (pre := pre ++ [true, true] ++ bitsOf (lead.setWidth 64) 5)
        (by simpa [encodeRecord] using hb) (by simp) hs
    have h5 : bitsGet bits (pre.length + 13) (sigCount s6) = some m :=
      bitsGet_field (pre := pre ++ [true, true] ++ bitsOf (lead.setWidth 64) 5 ++ bitsOf (s6.setWidth 64) 6)
        (by simpa [encodeRecord] using hb) (by simp) hm
    simp [readRecord, h1, h2, h3, h4, hlead, hsig, hok, h5]

theorem encodeRecord_ne_nil (W : Window) (r : Record) : encodeRecord W r ≠ [] := by
  cases r <;> simp [encodeRecord]

/-- DEC finds the record whose encoding stands at its cursor (41_decoder.md R190). -/
theorem fetchRecord_of_rest {s : State} {r : Record} {post : List Bool} (ha : s.dec.Attached)
    (hr : r.readable s.cfg.malformed s.dec.window = true)
    (hrest : s.dec.rest = encodeRecord s.dec.window r ++ post) : fetchRecord s = .record r := by
  have hne : s.dec.rest ≠ [] := by
    rw [hrest]; exact List.append_ne_nil_of_left_ne_nil (encodeRecord_ne_nil _ _) _
  rw [fetchRecord_eq ha (.inr (Dec.hasStream_of_rest hne))]
  exact readRecord_encodeRecord (pre := []) hr hrest

/-- A DEC_NEXT past the seed runs the record at its cursor. -/
theorem exec_decNext_of_rest {s : State} {r : Record} {post : List Bool} (ha : s.dec.Attached)
    (he : s.dec.err = .none) (hf : s.dec.finished = false) (h1 : s.dec.first = false)
    (hr : r.readable s.cfg.malformed s.dec.window = true)
    (hrest : s.dec.rest = encodeRecord s.dec.window r ++ post) :
    exec .decNext s = .next (runRecord r s) := by
  rw [exec_decNext, afterChecks_go he hf h1, nextRecord, fetchRecord_of_rest ha hr hrest]

/-! ### What a windowed record does, one rule per case -/

/-- The state once the cursor has passed `n` bits of a record that leaves the window `W` in force. -/
def passRecord (n : Nat) (W : Window) (s : State) : State :=
  { s with dec := { s.dec with pos := s.dec.pos + n, lead := W.lead, trail := W.trail } }

section
variable {s : State} {lead : BitVec 5} {s6 : BitVec 6} {m : Word}

/-- The candidate is the sentinel: the stream ends and the value is kept (41_decoder.md R197). -/
theorem takeDelta_of_end (h : candidate m s.dec = s.cfg.sentinel) : takeDelta m s =
    { s with dec := { s.dec with finished := true }, res := { s.res with avail := false },
             inputInUse := false } := by
  rcases takeDelta_cases m s with ⟨-, hs⟩ | ⟨hne, -⟩
  · exact hs
  · exact absurd h hne

/-- Any other candidate is the next value (41_decoder.md R196). -/
theorem takeDelta_of_value (h : candidate m s.dec ≠ s.cfg.sentinel) : takeDelta m s =
    { s with dec := { s.dec with cur := candidate m s.dec }, res := { s.res with avail := true },
             gotValue := true } := by
  rcases takeDelta_cases m s with ⟨heq, -⟩ | ⟨-, hs⟩
  · exact absurd heq h
  · exact hs

/-- A REUSE record keeps the window in force, under which its delta applies (41_decoder.md R194). -/
theorem recordReuse_eq :
    recordReuse m s = takeDelta m (passRecord (2 + windowWidth s.dec.window) s.dec.window s) := rfl

/-- A malformed NEW record that the policy refuses (41_decoder.md R199). -/
theorem recordNew_refused (h : (malformedNew lead s6 && s.cfg.malformed == .error) = true) :
    recordNew lead s6 m s =
      { s with dec := { s.dec with pos := s.dec.pos + 13, err := .malformedStream },
               res := { s.res with avail := false }, inputInUse := false } := by
  rw [recordNew, if_pos h]; rfl

/-- A NEW record that is taken sets its window, under which its delta applies (41_decoder.md R195, R196). -/
theorem recordNew_taken (h : (malformedNew lead s6 && s.cfg.malformed == .error) = false) :
    recordNew lead s6 m s = takeDelta m (passRecord (13 + sigCount s6) (newRecordWindow lead s6) s) := by
  rw [recordNew, if_neg (by simp [h])]; rfl

end

/-! ### Moving the cursor -/

/-- The cursor past bits that stand there: the unpacker keeps its form and the bits after them are left. -/
theorem Dec.Attached.skip {d d' : Dec} {xs post : List Bool} (h : d.Attached) (hrest : d.rest = xs ++ post)
    (hi : d'.inp = d.inp) (hs : d'.hasStream = d.hasStream) (hl : d'.lim = d.lim)
    (hp : d'.pos = d.pos + xs.length) : d'.Attached ∧ d'.rest = post := by
  have hbits : (streamOf d.inp.bytes).drop d.pos = xs ++ post := by rw [← Dec.rest_eq h, hrest]
  obtain ⟨hwf, hstream, hlim, hpos⟩ := h
  have hlen := congrArg List.length hbits
  simp only [List.length_drop, streamOf_length, Memory.bytes_length, List.length_append] at hlen
  have ha : d'.Attached :=
    ⟨by rw [hi]; exact hwf, by rw [hs, hi]; exact hstream, by rw [hl, hi]; exact hlim, by omega⟩
  refine ⟨ha, ?_⟩
  rw [Dec.rest_eq ha, hi, hp, ← List.drop_drop, hbits, List.drop_left]

/-- Settles O35: the one bit 0 is the encoding of SAME, which DEC_NEXT finds and runs. -/
theorem sameRecordKeepsValue : Obligations.SameRecordKeepsValue := by
  intro s post ha he hf h1 hrest t
  have hsame : exec .same s = .next t := congrArg _ (afterChecks_go he hf h1)
  obtain ⟨-, hpost⟩ := ha.skip (d' := t.dec) (xs := [false]) hrest rfl rfl rfl rfl
  exact ⟨exec_decNext_of_rest (r := .same) ha he hf h1 rfl hrest, hsame, hpost⟩

end Sys2Proof.Machine
end

section
/-! PROOFS. The header byte (41_decoder.md R184): the decoder sees its buffer through the stream's bits
alone. -/

namespace Sys2Proof.Machine

/-- The same decoder with other bytes in IN. -/
def withInput (m : Memory) (s : State) : State := { s with dec := { s.dec with inp := m } }

/-! ### No operation after the fetch looks at IN -/

theorem takeDelta_withInput (m : Memory) (x : Word) (s : State) :
    takeDelta x (withInput m s) = withInput m (takeDelta x s) := by
  by_cases h : candidate x s.dec = s.cfg.sentinel
  · rw [takeDelta_of_end h, takeDelta_of_end (s := withInput m s) h]; rfl
  · rw [takeDelta_of_value h, takeDelta_of_value (s := withInput m s) h]; rfl

theorem runRecord_withInput (m : Memory) (r : Record) (s : State) :
    runRecord r (withInput m s) = withInput m (runRecord r s) := by
  cases r with
  | same => rfl
  | reuse x => exact takeDelta_withInput m x (passRecord (2 + windowWidth s.dec.window) s.dec.window s)
  | newWindow lead s6 x =>
    simp only [runRecord]
    cases hm : malformedNew lead s6 && s.cfg.malformed == .error
    · rw [recordNew_taken hm, recordNew_taken (s := withInput m s) hm]
      exact takeDelta_withInput m x (passRecord (13 + sigCount s6) (newRecordWindow lead s6) s)
    · rw [recordNew_refused hm, recordNew_refused (s := withInput m s) hm]; rfl

theorem truncate_withInput (m : Memory) (n : Nat) (inNew : Bool) (s : State) :
    truncate n inNew (withInput m s) = withInput m (truncate n inNew s) := by
  cases inNew <;> rfl

theorem seedStep_withInput (m : Memory) (s : State) : seedStep (withInput m s) = withInput m (seedStep s) := by
  by_cases h : s.dec.cur = s.cfg.sentinel
  · rw [seedStep_of_end h, seedStep_of_end (s := withInput m s) h]; rfl
  · rw [seedStep_of_value h, seedStep_of_value (s := withInput m s) h]; rfl

/-! ### Buffers that hold the same stream -/

/-- Two buffers hold the same stream: every bit after the header is the same. -/
def SameStream (m m' : Memory) : Prop := ∀ p, streamBit m' p = streamBit m p

theorem sameStream_cons (b b' : Byte) (rest : List Byte) :
    SameStream (Memory.ofBytes (b :: rest)) (Memory.ofBytes (b' :: rest)) := by
  intro p
  rw [streamBit_eq (Memory.wf_ofBytes _), streamBit_eq (Memory.wf_ofBytes _)]
  simp only [Memory.bytes_ofBytes]
  rfl

theorem readBits_of_sameStream {m m' : Memory} (h : SameStream m m') (n : Nat) :
    ∀ (p : Nat) (r : Word), readBits m' p n r = readBits m p n r := by
  induction n with
  | zero => intro p r; rfl
  | succ n ih => intro p r; simp only [readBits, h p, ih]

section
variable {s : State} {m : Memory}

theorem bitsAt_withInput (h : SameStream s.dec.inp m) : bitsAt (withInput m s).dec = bitsAt s.dec := by
  funext p n
  exact congrArg (fun x => if s.dec.hasStream && decide (p + n ≤ s.dec.lim) then x else none)
    (readBits_of_sameStream h n p 0#64)

theorem nextRecord_withInput (h : SameStream s.dec.inp m) :
    nextRecord (withInput m s) = withInput m (nextRecord s) := by
  have hfetch : fetchRecord (withInput m s) = fetchRecord s :=
    congrArg (fun get => readRecord get s.cfg.malformed s.dec.window s.dec.pos) (bitsAt_withInput h)
  unfold nextRecord
  rw [hfetch]
  cases fetchRecord s with
  | record r => exact runRecord_withInput m r s
  | truncated n inNew => exact truncate_withInput m n inNew s

/-- DEC_NEXT does the same on buffers that hold the same stream, and leaves each as it is. -/
theorem afterChecks_withInput (h : SameStream s.dec.inp m) :
    afterChecks (withInput m s) nextRecord = withInput m (afterChecks s nextRecord) := by
  rcases afterChecks_cases s nextRecord with ⟨ht, hs⟩ | ⟨he, hf, h1, hs⟩ | ⟨he, hf, h1, hs⟩
  · rw [hs, afterChecks_terminal (s := withInput m s) ht]; rfl
  · rw [hs, afterChecks_first (s := withInput m s) he hf h1, seedStep_withInput]
  · rw [hs, afterChecks_go (s := withInput m s) he hf h1, nextRecord_withInput h]

end

/-- DEC_NEXT does not write IN (20_memory.md R60). -/
theorem afterChecks_inp (s : State) : (afterChecks s nextRecord).dec.inp = s.dec.inp := by
  rcases afterChecks_cases s nextRecord with ⟨-, h⟩ | ⟨-, -, -, h⟩ | ⟨-, -, -, h⟩ <;> rw [h]
  case inl => rfl
  case inr.inl => rcases seedStep_cases s with ⟨-, hs⟩ | ⟨-, hs⟩ <;> rw [hs]
  case inr.inr =>
    obtain ⟨pos, W, -, ⟨c, -, -, hn⟩ | ⟨-, hn⟩ | ⟨k, idx, -, -, hn⟩⟩ := nextRecord_cases s <;> rw [hn]

/-- Any number of DEC_NEXT keep two decoders that differ in IN alone so, where IN holds the same stream. -/
theorem runAll_decNext_withInput {m : Memory} (n : Nat) : ∀ {s : State}, SameStream s.dec.inp m →
    ∃ t, runAll (List.replicate n .decNext) s = .next t ∧
      runAll (List.replicate n .decNext) (withInput m s) = .next (withInput m t) := by
  induction n with
  | zero => intro s _; exact ⟨s, rfl, rfl⟩
  | succ n ih =>
    intro s h
    obtain ⟨t, ht, ht'⟩ := ih (s := afterChecks s nextRecord) (by rw [afterChecks_inp]; exact h)
    refine ⟨t, ht, ?_⟩
    rw [← afterChecks_withInput h] at ht'
    exact ht'

/-! ### DEC_SETBYTES -/

/-- DEC_SETBYTES sees the header byte only by storing it (41_decoder.md R184). -/
theorem setBytes_cons (b b' : Byte) (rest : List Byte) (s : State) :
    setBytes (b' :: rest) s = withInput (Memory.ofBytes (b' :: rest)) (setBytes (b :: rest) s) := by
  have hlen : (b' :: rest).length = (b :: rest).length := rfl
  rcases setBytes_cases (b :: rest) s with ⟨hnil, -⟩ | ⟨-, h8, h⟩ | ⟨h9, h⟩
  case inl => cases hnil
  case inr.inl =>
    rcases setBytes_cases (b' :: rest) s with ⟨hnil, -⟩ | ⟨-, -, h'⟩ | ⟨h9', -⟩
    · cases hnil
    · rw [h, h']; rfl
    · omega
  case inr.inr =>
    rcases setBytes_cases (b' :: rest) s with ⟨hnil, -⟩ | ⟨-, h8', -⟩ | ⟨-, h'⟩
    · cases hnil
    · omega
    · rw [h, h']; rfl

theorem setBytes_inp (ibuf : List Byte) (s : State) : (setBytes ibuf s).dec.inp = Memory.ofBytes ibuf := by
  rcases setBytes_cases ibuf s with ⟨rfl, h⟩ | ⟨-, -, h⟩ | ⟨-, h⟩ <;> rw [h] <;> rfl

/-- Settles O33: after DEC_SETBYTES the two sessions differ in IN alone, where they hold the same stream, and
every DEC_NEXT keeps that. -/
theorem headerByteIsIgnored : Obligations.HeaderByteIsIgnored := by
  intro s b b' rest n hfits
  have hsame : SameStream (setBytes (b :: rest) s).dec.inp (Memory.ofBytes (b' :: rest)) := by
    rw [setBytes_inp]; exact sameStream_cons b b' rest
  obtain ⟨t, ht, ht'⟩ := runAll_decNext_withInput n hsame
  refine ⟨t, ?_, ?_⟩
  · simp only [runAll, exec_decSetbytes_of_fits (s := s) (ibuf := b :: rest) hfits]; exact ht
  · simp only [runAll, exec_decSetbytes_of_fits (s := s) (ibuf := b' :: rest) hfits, setBytes_cons b b']
    exact ht'

end Sys2Proof.Machine
end

section
/-! PROOFS. The record the encoder chooses, as the decoder runs it (40_encoder.md R144 to R147, R161;
41_decoder.md R192 to R197). -/

namespace Sys2Proof.Machine

/-! ### One shape for every record -/

/-- The significant bits of a record; SAME carries the delta 0. -/
def sigBits : Record → Word
  | .same => 0#64
  | .reuse m => m
  | .newWindow _ _ m => m

/-- The window in force after a record. -/
def windowAfter (W : Window) : Record → Window
  | .same => W
  | .reuse _ => W
  | .newWindow lead s6 _ => newRecordWindow lead s6

@[simp] theorem deltaOf_zero (trail : Word) : deltaOf trail 0#64 = 0#64 := by
  unfold deltaOf; split <;> simp

@[simp] theorem candidate_zero (d : Dec) : candidate 0#64 d = d.cur := by simp [candidate]

/-- Every record that is not refused sets its window and applies its delta; SAME does so with the delta 0,
since the current value is never the sentinel. -/
theorem runRecord_eq_takeDelta {r : Record} {s : State} (hr : refusedMalformed s.cfg.malformed r = false)
    (hc : s.dec.cur ≠ s.cfg.sentinel) :
    runRecord r s = takeDelta (sigBits r)
      (passRecord (recordLength s.dec.window r) (windowAfter s.dec.window r) s) := by
  cases r with
  | same =>
    have hcand : candidate 0#64 (passRecord 1 s.dec.window s).dec = s.dec.cur := candidate_zero _
    have hstep := takeDelta_of_value (m := 0#64) (s := passRecord 1 s.dec.window s) (by rw [hcand]; exact hc)
    rw [hcand] at hstep
    exact hstep.symm
  | reuse m => exact recordReuse_eq
  | newWindow lead s6 m => exact recordNew_taken hr

theorem readable_of_wf {policy : MalformedPolicy} {W : Window} {r : Record} (h : r.wf W = true) :
    r.readable policy W = true := by
  cases r with
  | same => rfl
  | reuse m => exact h
  | newWindow lead s6 m =>
    simp only [Record.wf, Bool.and_eq_true, Bool.not_eq_true'] at h
    simp [Record.readable, h]

theorem not_refused_of_wf {policy : MalformedPolicy} {W : Window} {r : Record} (h : r.wf W = true) :
    refusedMalformed policy r = false := by
  cases r with
  | same => rfl
  | reuse m => rfl
  | newWindow lead s6 m =>
    simp only [Record.wf, Bool.and_eq_true, Bool.not_eq_true'] at h
    simp [refusedMalformed, h]

/-- A trailing count of at most 63 survives the encoder's 6-bit register (10_state.md R21). -/
theorem setWidth_trail {trail : Word} (h : trail.toNat ≤ 63) : (trail.setWidth 6).setWidth 64 = trail := by
  apply BitVec.eq_of_toNat_eq
  simp only [BitVec.toNat_setWidth]
  omega

/-! ### What the chosen record carries -/

section
variable {cfg : Config} {w : Word} {e : Enc} (hw : e.winValid = true → e.lead.toNat + e.trail.toNat ≤ 63)
include hw

/-- All that the encoder's choice can be: SAME for a delta 0; REUSE where the delta lies in the window; NEW
with a window of its own, whose leading count the clamp may have lowered (40_encoder.md R144 to R147). -/
theorem chosenRecord_cases :
    (w = e.prev ∧ chosenRecord cfg w e = .same) ∨
    (e.lead.toNat + e.trail.toNat ≤ 63 ∧ e.lead.toNat ≤ clz64 (w ^^^ e.prev) ∧
      e.trail.toNat ≤ ctz64 (w ^^^ e.prev) ∧
      chosenRecord cfg w e = .reuse ((w ^^^ e.prev) >>> e.trail.toNat)) ∨
    (∃ L, L ≤ 31 ∧ L ≤ clz64 (w ^^^ e.prev) ∧ L + ctz64 (w ^^^ e.prev) ≤ 63 ∧
      chosenRecord cfg w e = .newWindow (BitVec.ofNat 5 L) (sigField (64 - L - ctz64 (w ^^^ e.prev)))
        ((w ^^^ e.prev) >>> ctz64 (w ^^^ e.prev))) := by
  obtain ⟨hle, -⟩ := clampLead_le cfg.leadClamp (clz64 (w ^^^ e.prev))
  by_cases hd : w ^^^ e.prev = 0#64
  · exact .inl ⟨BitVec.xor_eq_zero_iff.1 hd, if_pos hd⟩
  obtain ⟨hL, hsum⟩ := chosen_counts cfg.leadClamp hd
  by_cases hr : reusesWindow (clampLead cfg.leadClamp (clz64 (w ^^^ e.prev))) (ctz64 (w ^^^ e.prev)) e = true
  · obtain ⟨hv, hlead, htrail⟩ := reusesWindow_eq_true.1 hr
    exact .inr (.inl ⟨hw hv, by omega, htrail, chosenRecord_reuse hd hr⟩)
  · exact .inr (.inr ⟨_, hL, hle, hsum, by simp [chosenRecord, hd, hr]⟩)

theorem chosenRecord_wf : (chosenRecord cfg w e).wf e.window = true := by
  rcases chosenRecord_cases (cfg := cfg) (w := w) hw with
    ⟨-, h⟩ | ⟨hsum, hlead, -, h⟩ | ⟨L, hL, hle, hsum, h⟩ <;> rw [h]
  case inl => rfl
  case inr.inl =>
    have hlt := shift_lt (d := w ^^^ e.prev) (L := e.lead.toNat) (T := e.trail.toNat) (by omega)
      fun i hi => clz64_zero_above _ i (by omega)
    simp only [Record.wf, enc_windowWidth hsum, Bool.and_eq_true, decide_eq_true_eq]
    exact ⟨⟨by omega, by omega⟩, hlt⟩
  case inr.inr =>
    have hlt := shift_lt (d := w ^^^ e.prev) (L := L) (T := ctz64 (w ^^^ e.prev)) (by omega)
      fun i hi => clz64_zero_above _ i (by omega)
    simpa [Record.wf, malformedNew_chosen hL hsum,
      sigCount_sigField (S := 64 - L - ctz64 (w ^^^ e.prev)) (by omega) (by omega)] using hlt

/-- The delta a decoder computes from the chosen record is the delta written (40_encoder.md R161). -/
theorem chosenRecord_delta :
    deltaOf (windowAfter e.window (chosenRecord cfg w e)).trail (sigBits (chosenRecord cfg w e)) = w ^^^ e.prev := by
  rcases chosenRecord_cases (cfg := cfg) (w := w) hw with
    ⟨heq, h⟩ | ⟨hsum, -, htrail, h⟩ | ⟨L, hL, -, hsum, h⟩ <;> rw [h]
  case inl => simp [sigBits, heq]
  case inr.inl =>
    have ht : e.window.trail.toNat = e.trail.toNat := by
      simp only [Enc.window, BitVec.toNat_setWidth]; omega
    exact deltaOf_shift ht (by omega) fun i hi => ctz64_zero_below _ i (by omega)
  case inr.inr =>
    exact deltaOf_shift (chosen_trail hL hsum) (by omega) fun i hi => ctz64_zero_below _ i hi

/-- Encoder and decoder set the same window (40_encoder.md R146, 41_decoder.md R195). -/
theorem afterRecord_window :
    (afterRecord (chosenRecord cfg w e) e).window = windowAfter e.window (chosenRecord cfg w e) := by
  rcases chosenRecord_cases (cfg := cfg) (w := w) hw with
    ⟨-, h⟩ | ⟨-, -, -, h⟩ | ⟨L, hL, -, hsum, h⟩ <;> rw [h]
  case inl => rfl
  case inr.inl => rfl
  case inr.inr =>
    exact congrArg (Window.mk (BitVec.ofNat 5 L)) (setWidth_trail (by rw [chosen_trail hL hsum]; omega))

/-- An accepted write keeps the window legal (40_encoder.md R161). -/
theorem afterWrite_window_legal (h : (afterWrite cfg w e).winValid = true) :
    (afterWrite cfg w e).lead.toNat + (afterWrite cfg w e).trail.toNat ≤ 63 := by
  revert h
  unfold afterWrite
  split
  · exact hw
  rcases chosenRecord_cases (cfg := cfg) (w := w) hw with
    ⟨-, h⟩ | ⟨-, -, -, h⟩ | ⟨L, hL, -, hsum, h⟩ <;> rw [h]
  case inl => exact hw
  case inr.inl => exact hw
  case inr.inr =>
    intro _
    simp only [afterRecord, BitVec.toNat_setWidth, chosen_trail hL hsum, ofNat_lead_toNat hL]
    omega

end

end Sys2Proof.Machine
end

section
/-! PROOFS. The round trip (41_decoder.md R206): what a session writes, and a decoder that follows it record by
record. -/

namespace Sys2Proof.Machine

/-! ### The encoder's side -/

/-- The bits a session writes from `e` on: a record for each value, then the END record. -/
def streamBits (cfg : Config) : List Word → Enc → List Bool
  | [], e => writeBits cfg cfg.sentinel e
  | v :: vs, e => writeBits cfg v e ++ streamBits cfg vs (afterWrite cfg v e)

/-- What a write emits does not depend on the packer. -/
theorem writeBits_congr {e e' : Enc} (cfg : Config) (w : Word) (h : e.OnlyPacker e') :
    writeBits cfg w e' = writeBits cfg w e := by
  rw [h]; rfl

theorem afterWrite_congr {e e' : Enc} (cfg : Config) (w : Word) (h : e.OnlyPacker e') :
    (afterWrite cfg w e).OnlyPacker (afterWrite cfg w e') := by
  have hc : chosenRecord cfg w e' = chosenRecord cfg w e := by rw [h]; rfl
  have hf : e'.first = e.first := by rw [h]
  rw [Enc.OnlyPacker] at *
  unfold afterWrite
  rw [hc, hf]
  split
  · rw [h]
  · cases chosenRecord cfg w e <;> simp only [afterRecord] <;> rw [h]

theorem streamBits_congr (cfg : Config) (vs : List Word) :
    ∀ {e e' : Enc}, e.OnlyPacker e' → streamBits cfg vs e' = streamBits cfg vs e := by
  induction vs with
  | nil => intro e e' h; exact writeBits_congr cfg _ h
  | cons v vs ih =>
    intro e e' h
    simp only [streamBits, writeBits_congr cfg v h, ih (afterWrite_congr cfg v h)]

/-- An encoder in the middle of a session without errors. -/
structure Enc.Writing (e : Enc) : Prop where
  packed : e.Packed
  legal : e.winValid = true → e.lead.toNat + e.trail.toNat ≤ 63
  unfinished : e.finished = false
  noError : e.err = .none

theorem Enc.HasRoom.of_unbounded {cap : Option Nat} (h : cap = none) (n : Nat) (e : Enc) : e.HasRoom cap n := by
  rw [h]; rfl

/-- ENC_WRITE of a value in a session without a bound on OUT. -/
theorem Enc.Writing.encWrite {s : State} {w : Word} (h : s.enc.Writing) (hcap : s.cfg.outCap = none)
    (hn : isNaN w = false) :
    ∃ e, exec (.encWrite w) s = .next { s with enc := e } ∧ (afterWrite s.cfg w s.enc).OnlyPacker e ∧
      s.enc.Appended e (writeBits s.cfg w s.enc) ∧ e.Writing := by
  obtain ⟨e, hwrite, ho, happ⟩ := writePath_room (cfg := s.cfg) (w := w) (bypass := false) h.packed h.legal
    (by simp [rejectsWrite, hn]) (.of_unbounded hcap _ _)
  obtain ⟨-, -, herr, hfin⟩ := afterWrite_fields s.cfg w s.enc
  refine ⟨e, exec_encWrite_of_some hwrite, ho, happ, happ.packed, ?_, ?_, ?_⟩ <;> rw [ho]
  · exact afterWrite_window_legal h.legal
  · exact hfin.trans h.unfinished
  · exact herr.trans h.noError

/-- The flush pads the stream to a byte (40_encoder.md R150). -/
theorem flushBits_aligned (cfg : Config) (e : Enc) : (e.pcnt.toNat + (flushBits cfg e).length) % 8 = 0 := by
  simp only [flushBits, List.length_append, List.length_replicate]
  omega

/-- ENC_FLUSH of a session without a bound on OUT. -/
theorem Enc.Writing.encFlush {s : State} (h : s.enc.Writing) (hcap : s.cfg.outCap = none) :
    ∃ e, exec .encFlush s = .next { s with enc := e } ∧ s.enc.Appended e (flushBits s.cfg s.enc) ∧
      e.pcnt = 0#3 ∧ e.err = .none := by
  obtain ⟨e, hfin, ho, happ⟩ := finalize_room (cfg := s.cfg) h.packed h.legal (.of_unbounded hcap _ _)
  obtain ⟨-, -, herr, -⟩ := afterWrite_fields s.cfg s.cfg.sentinel s.enc
  refine ⟨e, exec_encFlush_open h.unfinished hfin, happ, ?_, ?_⟩
  · exact BitVec.eq_of_toNat_eq (happ.count.trans (flushBits_aligned _ _))
  · rw [ho]; exact herr.trans h.noError

/-- A session's writes and its flush append its records and the END record, padded to a byte. -/
theorem runAll_writes_flush (vs : List Word) : ∀ {s : State}, s.enc.Writing → s.cfg.outCap = none →
    (∀ v ∈ vs, isNaN v = false) → ∃ e pad,
      (∀ is, runAll (vs.map .encWrite ++ .encFlush :: is) s = runAll is { s with enc := e }) ∧
      s.enc.Appended e (streamBits s.cfg vs s.enc ++ pad) ∧ e.pcnt = 0#3 ∧ e.err = .none := by
  induction vs with
  | nil =>
    intro s h hcap _
    obtain ⟨e, hflush, happ, hpcnt, herr⟩ := h.encFlush hcap
    refine ⟨e, _, fun is => ?_, happ, hpcnt, herr⟩
    simp only [List.map_nil, List.nil_append, runAll, hflush]
  | cons v vs ih =>
    intro s h hcap hn
    obtain ⟨e1, hwrite, ho, happ1, h1⟩ := h.encWrite hcap (hn v List.mem_cons_self)
    obtain ⟨e, pad, hrun, happ, hpcnt, herr⟩ :=
      ih (s := { s with enc := e1 }) h1 hcap fun x hx => hn x (List.mem_cons_of_mem v hx)
    refine ⟨e, pad, fun is => ?_, ?_, hpcnt, herr⟩
    · simp only [List.map_cons, List.cons_append, runAll, hwrite]; exact hrun is
    · rw [streamBits, ← streamBits_congr s.cfg vs ho, List.append_assoc]; exact happ1.trans happ

theorem Enc.writing_powerOn (cfg : Config) : (Enc.powerOn cfg).Writing where
  packed := ⟨rfl, Nat.le_refl 1, by simp [Enc.powerOn]⟩
  legal := fun h => nomatch h
  unfinished := rfl
  noError := rfl

/-- A whole session, read out: the buffer's stream is the session's, and no error is reported. -/
theorem runAll_session {s : State} {vs : List Word} (hcap : s.cfg.outCap = none)
    (hn : ∀ v ∈ vs, isNaN v = false) : ∃ t pad,
      runAll (.encReset :: (vs.map .encWrite ++ [.encFlush, .encBytes])) s = .next t ∧ t.res.oerr = 0#2 ∧
      t.cfg = s.cfg ∧ streamOf t.res.obuf = streamBits s.cfg vs (Enc.powerOn s.cfg) ++ pad := by
  obtain ⟨e, pad, hrun, happ, hpcnt, herr⟩ :=
    runAll_writes_flush vs (s := { s with enc := Enc.powerOn s.cfg }) (Enc.writing_powerOn s.cfg) hcap hn
  refine ⟨_, pad, hrun [.encBytes], ?_, rfl, ?_⟩
  · simp only [herr]; rfl
  · have hstream := happ.stream
    rw [Enc.bits_eq_nil_of_empty (e := Enc.powerOn s.cfg) rfl rfl, Enc.bits, hpcnt] at hstream
    simpa [tailBytes, hpcnt] using hstream

/-! ### The decoder's side -/

/-- DEC, past its seed, stands before what an encoder in the state `e` writes next: the value and the window of
both agree. -/
structure InStep (e : Enc) (s : State) : Prop where
  attached : s.dec.Attached
  noError : s.dec.err = .none
  unfinished : s.dec.finished = false
  pastSeed : s.dec.first = false
  encPastSeed : e.first = false
  value : s.dec.cur = e.prev
  notEnd : s.dec.cur ≠ s.cfg.sentinel
  window : s.dec.window = e.window
  legal : e.winValid = true → e.lead.toNat + e.trail.toNat ≤ 63

/-- DEC_VALUE after a 1 of the session (41_decoder.md R201). -/
theorem exec_decValue_of_gotValue {s : State} (h : s.gotValue = true) :
    exec .decValue s = .next { s with res := { s.res with rdata := s.dec.cur } } :=
  if_pos h

section
variable {e : Enc} {s : State} {w : Word} {post : List Bool}

/-- DEC_NEXT before the record of `w` applies the delta to `w`, under the encoder's next window. -/
theorem InStep.exec_decNext (h : InStep e s) (hrest : s.dec.rest = writeBits s.cfg w e ++ post) :
    ∃ m t, exec .decNext s = .next (takeDelta m t) ∧ candidate m t.dec = w ∧
      t = passRecord (writeBits s.cfg w e).length (afterWrite s.cfg w e).window s := by
  have hbits : writeBits s.cfg w e = encodeRecord e.window (chosenRecord s.cfg w e) :=
    if_neg (by simp [h.encPastSeed])
  have hafter : afterWrite s.cfg w e = { afterRecord (chosenRecord s.cfg w e) e with prev := w } :=
    if_neg (by simp [h.encPastSeed])
  have hwf : (chosenRecord s.cfg w e).wf s.dec.window = true := by rw [h.window]; exact chosenRecord_wf h.legal
  have hnext := exec_decNext_of_rest h.attached h.noError h.unfinished h.pastSeed (readable_of_wf hwf)
    (by rw [hrest, hbits, h.window])
  rw [runRecord_eq_takeDelta (not_refused_of_wf hwf) h.notEnd, h.window] at hnext
  refine ⟨_, _, hnext, ?_, ?_⟩
  · have hdelta := chosenRecord_delta (cfg := s.cfg) (w := w) h.legal
    change s.dec.cur ^^^ deltaOf (windowAfter e.window _).trail _ = w
    rw [hdelta, h.value, BitVec.xor_comm w, ← BitVec.xor_assoc, BitVec.xor_self, BitVec.zero_xor]
  · rw [hbits, Laws.encodeRecord_bits, hafter]
    exact congrArg (fun W => passRecord _ W s) (afterRecord_window h.legal).symm

/-- The END record ends the stream without an error (41_decoder.md R197, R202). -/
theorem InStep.decodesTo_nil (h : InStep e s) (hrest : s.dec.rest = writeBits s.cfg s.cfg.sentinel e ++ post) :
    DecodesTo [] s := by
  obtain ⟨m, t, hnext, hcand, rfl⟩ := h.exec_decNext hrest
  rw [takeDelta_of_end hcand] at hnext
  exact ⟨_, hnext, rfl, h.noError, rfl⟩

/-- Any other record gives the value written, after which both sides agree again. -/
theorem InStep.decNext_value (h : InStep e s) (hne : w ≠ s.cfg.sentinel)
    (hrest : s.dec.rest = writeBits s.cfg w e ++ post) :
    ∃ t u, exec .decNext s = .next t ∧ t.res.avail = true ∧ exec .decValue t = .next u ∧ u.res.rdata = w ∧
      u.cfg = s.cfg ∧ InStep (afterWrite s.cfg w e) u ∧ u.dec.rest = post := by
  obtain ⟨m, t, hnext, hcand, rfl⟩ := h.exec_decNext hrest
  rw [takeDelta_of_value (by rw [hcand]; exact hne), hcand] at hnext
  obtain ⟨hprev, hfirst, -, -⟩ := afterWrite_fields s.cfg w e
  obtain ⟨ha, hpost⟩ := h.attached.skip
    (d' := (passRecord (writeBits s.cfg w e).length (afterWrite s.cfg w e).window s).dec) hrest rfl rfl rfl rfl
  exact ⟨_, _, hnext, rfl, exec_decValue_of_gotValue rfl, rfl, rfl, {
    attached := ha
    noError := h.noError
    unfinished := h.unfinished
    pastSeed := h.pastSeed
    encPastSeed := hfirst
    value := hprev.symm
    notEnd := hne
    window := rfl
    legal := afterWrite_window_legal h.legal }, hpost⟩

end

/-- A decoder in step with the encoder gives back the values written and then the end. -/
theorem InStep.decodesTo (vs : List Word) : ∀ {e : Enc} {s : State} {post : List Bool}, InStep e s →
    (∀ v ∈ vs, v ≠ s.cfg.sentinel) → s.dec.rest = streamBits s.cfg vs e ++ post → DecodesTo vs s := by
  induction vs with
  | nil => intro e s post h _ hrest; exact h.decodesTo_nil hrest
  | cons v vs ih =>
    intro e s post h hne hrest
    rw [streamBits, List.append_assoc] at hrest
    obtain ⟨t, u, hnext, havail, hvalue, hv, hcfg, hu, hpost⟩ := h.decNext_value (hne v List.mem_cons_self) hrest
    refine ⟨t, u, hnext, havail, hvalue, hv, ih hu (fun x hx => ?_) (by rw [hcfg]; exact hpost)⟩
    rw [hcfg]; exact hne x (List.mem_cons_of_mem v hx)

/-! ### The seed -/

/-- A buffer whose stream begins with a word is long enough to start a session on it (41_decoder.md R182). -/
theorem setBytes_of_stream {ibuf : List Byte} {v : Word} {post : List Bool} (s : State)
    (hs : streamOf ibuf = bitsOf v 64 ++ post) : 9 ≤ ibuf.length ∧ setBytes ibuf s = takeSeed v
      { s with dec := { s.dec with inp := Memory.ofBytes ibuf, pos := 0, hasStream := true,
                                   lim := 8 * (ibuf.length - 1) } } := by
  have hlen := congrArg List.length hs
  simp only [streamOf_length, List.length_append, bitsOf_length] at hlen
  have hv : wordOf ((streamOf ibuf).take 64) = v := by
    rw [hs, List.take_left' (bitsOf_length v 64), wordOf_bitsOf v.isLt]
  rcases setBytes_cases ibuf s with ⟨rfl, -⟩ | ⟨-, h8, -⟩ | ⟨h9, hset⟩
  · simp only [List.length_nil] at hlen; omega
  · omega
  · rw [hv] at hset; exact ⟨h9, hset⟩

/-- DEC_SETBYTES of such a buffer: the seed is taken and the cursor stands after it. -/
theorem exec_decSetbytes_of_stream {s : State} {ibuf : List Byte} {v : Word} {post : List Bool}
    (hfits : fitsCap s.cfg.inCap ibuf.length = true) (hs : streamOf ibuf = bitsOf v 64 ++ post) :
    ∃ u, exec (.decSetbytes ibuf) s = .next u ∧ u.res.ok = true ∧ u.cfg = s.cfg ∧
      u.dec.cur = v ∧ u.dec.window = ⟨0#5, 0#64⟩ ∧ u.dec.first = true ∧ u.dec.finished = false ∧
      u.dec.err = .none ∧ u.dec.Attached ∧ u.dec.rest = post := by
  obtain ⟨h9, hset⟩ := setBytes_of_stream s hs
  have hexec := exec_decSetbytes_of_fits hfits
  rw [hset] at hexec
  have ha : Dec.Attached (takeSeed v { s with dec := { s.dec with
      inp := Memory.ofBytes ibuf, pos := 0, hasStream := true, lim := 8 * (ibuf.length - 1) } }).dec := by
    refine ⟨Memory.wf_ofBytes ibuf, ?_, ?_, ?_⟩ <;>
      simp only [takeSeed_dec_hasStream, takeSeed_dec_inp, takeSeed_dec_lim, takeSeed_dec_pos, Memory.size_ofBytes]
    · exact (decide_eq_true (by omega)).symm
    · omega
  refine ⟨_, hexec, rfl, rfl, rfl, rfl, rfl, rfl, rfl, ha, ?_⟩
  rw [Dec.rest_eq ha, takeSeed_dec_inp, takeSeed_dec_pos, Memory.bytes_ofBytes, hs]
  exact List.drop_left' (bitsOf_length v 64)

/-- A decoder given the stream of a whole session yields its values and then the end. -/
theorem decodesTo_of_session {s : State} {ibuf : List Byte} {vs : List Word} {pad : List Bool}
    (hfits : fitsCap s.cfg.inCap ibuf.length = true) (hne : ∀ v ∈ vs, v ≠ s.cfg.sentinel)
    (hs : streamOf ibuf = streamBits s.cfg vs (Enc.powerOn s.cfg) ++ pad) :
    ∃ u, exec (.decSetbytes ibuf) s = .next u ∧ u.res.ok = true ∧ DecodesTo vs u := by
  cases vs with
  | nil =>
    obtain ⟨u, hset, hok, hcfg, hcur, -, hfirst, hfin, herr, -, -⟩ := exec_decSetbytes_of_stream hfits hs
    exact ⟨u, hset, hok, _, exec_decNext_sentinelSeed herr hfin hfirst (by rw [hcur, hcfg]), rfl, herr, rfl⟩
  | cons v vs =>
    rw [streamBits, List.append_assoc] at hs
    obtain ⟨u, hset, hok, hcfg, hcur, hwin, hfirst, hfin, herr, ha, hrest⟩ := exec_decSetbytes_of_stream hfits hs
    have hv : u.dec.cur ≠ u.cfg.sentinel := by rw [hcur, hcfg]; exact hne v List.mem_cons_self
    refine ⟨u, hset, hok, _, _, exec_decNext_valueSeed herr hfin hfirst hv, rfl,
      exec_decValue_of_gotValue rfl, hcur, InStep.decodesTo vs (e := afterWrite s.cfg v (Enc.powerOn s.cfg)) (post := pad) ?_ (fun x hx => ?_) ?_⟩
    · exact {
        attached := ha
        noError := herr
        unfinished := hfin
        pastSeed := rfl
        encPastSeed := rfl
        value := hcur
        notEnd := hv
        window := hwin
        legal := fun h => nomatch h }
    · change x ≠ u.cfg.sentinel
      rw [hcfg]; exact hne x (List.mem_cons_of_mem v hx)
    · change u.dec.rest = streamBits u.cfg _ _ ++ _
      rw [hcfg]; exact hrest

/-- Settles O60: the encoder writes a record for each value and the END record, and a decoder that stays in step
with it applies the same deltas under the same windows; no value is the sentinel, which is a NaN. -/
theorem encodedSequenceDecodesExactly : Obligations.EncodedSequenceDecodesExactly := by
  intro s vs hcfg hout hin hn
  obtain ⟨t, pad, hrun, herr, htcfg, hstream⟩ := runAll_session hout hn
  have hne : ∀ v ∈ vs, v ≠ t.cfg.sentinel := by
    rintro v hv rfl
    have hnan := hn _ hv
    rw [htcfg, isNaN_sentinel hcfg] at hnan
    cases hnan
  obtain ⟨u, hset, hok, hdec⟩ := decodesTo_of_session (by rw [htcfg, hin]; rfl) hne (by rw [htcfg]; exact hstream)
  exact ⟨t, u, hrun, herr, hset, hok, hdec⟩

end Sys2Proof.Machine
end

section
/-! PROOFS. The sticky errors: what raises, keeps and clears them (60_exceptions.md R238 to R240). -/

namespace Sys2Proof.Machine

/-! ### The commands of each port -/

theorem onEncPort_cases {i : Instr} (h : onEncPort i = true) :
    (∃ w, i = .encWrite w) ∨ i = .encFlush ∨ i = .encBytes ∨ i = .encReset := by
  cases i <;> simp [onEncPort] at h ⊢

theorem onDecPort_cases {i : Instr} (h : onDecPort i = true) :
    (∃ ibuf, i = .decSetbytes ibuf) ∨ i = .decNext ∨ i = .decValue ∨ i = .decError := by
  cases i <;> simp [onDecPort] at h ⊢

/-! ### The packer does not write the encoder's error -/

/-- Whatever encoder an operation answers, its error register holds `k`. -/
def LeavesErr (k : ErrKind) (r : Option Enc) : Prop := ∀ e, r = some e → e.err = k

section
variable {k : ErrKind} {e : Enc}

theorem LeavesErr.some (h : e.err = k) : LeavesErr k (some e) := by
  rintro _ ⟨⟩; exact h

theorem LeavesErr.bind {r : Option Enc} {f : Enc → Option Enc} (hr : LeavesErr k r)
    (hf : ∀ e, e.err = k → LeavesErr k (f e)) : LeavesErr k (r.bind f) := by
  intro e' h
  obtain ⟨e, he, hfe⟩ := Option.bind_eq_some_iff.1 h
  exact hf e (hr e he) e' hfe

theorem LeavesErr.map {r : Option Enc} {f : Enc → Enc} (hr : LeavesErr k r) (hf : ∀ e, (f e).err = e.err) :
    LeavesErr k (r.map f) := by
  intro e' h
  obtain ⟨e, he, rfl⟩ := Option.map_eq_some_iff.1 h
  rw [hf, hr e he]

theorem putBit_leavesErr (cap : Option Nat) (b : Bool) (h : e.err = k) : LeavesErr k (putBit cap b e) := by
  unfold putBit
  dsimp only
  split
  · split
    · rintro _ ⟨⟩
    · exact .some h
  · exact .some h

theorem putBits_succ (cap : Option Nat) (v : Word) (n : Nat) (e : Enc) :
    putBits cap v (n + 1) e = (putBit cap (v.getLsbD n) e).bind (putBits cap v n) := by
  rw [putBits]; cases putBit cap (v.getLsbD n) e <;> rfl

theorem putBits_leavesErr (cap : Option Nat) (v : Word) (n : Nat) (h : e.err = k) :
    LeavesErr k (putBits cap v n e) := by
  induction n generalizing e with
  | zero => exact .some h
  | succ n ih => rw [putBits_succ]; exact (putBit_leavesErr cap _ h).bind fun _ => ih

theorem padLoop_succ (cap : Option Nat) (n : Nat) (e : Enc) : padLoop cap (n + 1) e =
    if e.pcnt = 0#3 then some e else (putBit cap false e).bind (padLoop cap n) := by
  rw [padLoop]; cases putBit cap false e <;> rfl

theorem padLoop_leavesErr (cap : Option Nat) (n : Nat) (h : e.err = k) : LeavesErr k (padLoop cap n e) := by
  induction n generalizing e with
  | zero => exact .some h
  | succ n ih =>
    rw [padLoop_succ]
    split
    · exact .some h
    · exact (putBit_leavesErr cap false h).bind fun _ => ih

/-! ### The Write path -/

theorem emitReuse_leavesErr (cap : Option Nat) (d : Word) (h : e.err = k) : LeavesErr k (emitReuse cap d e) :=
  (putBit_leavesErr cap false h).bind fun _ => putBits_leavesErr cap _ _

theorem emitNew_leavesErr (cap : Option Nat) (d : Word) (L T : Nat) (h : e.err = k) :
    LeavesErr k (emitNew cap d L T e) :=
  .bind (r := putBit cap true { e with winValid := true, lead := BitVec.ofNat 5 L, trail := BitVec.ofNat 6 T })
    (putBit_leavesErr cap true h) fun _ h1 =>
  (putBits_leavesErr cap _ _ h1).bind fun _ h2 =>
  (putBits_leavesErr cap _ _ h2).bind fun _ => putBits_leavesErr cap _ _

theorem emitRecord_leavesErr (cfg : Config) (d : Word) (h : e.err = k) : LeavesErr k (emitRecord cfg d e) := by
  unfold emitRecord
  split
  · exact putBit_leavesErr _ _ h
  · refine (putBit_leavesErr _ _ h).bind fun e1 h1 => ?_
    dsimp only
    split
    · exact emitReuse_leavesErr _ _ h1
    · exact emitNew_leavesErr _ _ _ _ h1

/-- A rejected write raises its error and does nothing else (40_encoder.md R141). -/
theorem writePath_rejected {cfg : Config} {w : Word} {bypass : Bool} (ha : rejectsWrite w bypass e = true) :
    writePath cfg w bypass e = some (raiseEnc .unsupportedValue e) :=
  if_pos ha

/-- A write that is not rejected leaves the error as it was (40_encoder.md R140). -/
theorem writePath_leavesErr {w : Word} {bypass : Bool} (cfg : Config) (ha : rejectsWrite w bypass e = false)
    (h : e.err = k) : LeavesErr k (writePath cfg w bypass e) := by
  rw [writePath, if_neg (by simp [ha])]
  split
  · exact putBits_leavesErr _ _ _ h
  · exact (emitRecord_leavesErr cfg _ h).map fun _ => rfl

/-- ENC_FLUSH writes the sentinel past the NaN check, so it raises no error (40_encoder.md R150). -/
theorem finalize_leavesErr (cfg : Config) (h : e.err = k) : LeavesErr k (finalize cfg e) :=
  (writePath_leavesErr cfg (by simp [rejectsWrite]) h).bind fun _ h1 =>
    (padLoop_leavesErr _ _ h1).map fun _ => rfl

theorem raiseEnc_of_err (h : e.err = k) : raiseEnc k e = e := by
  subst h; rfl

end

/-! ### Each command and the encoder's error -/

section
variable {i : Instr} {s t : State}

/-- ENC_WRITE raises the error of a rejected write or keeps the one that stands. -/
theorem exec_encWrite_err {w : Word} (h : exec (.encWrite w) s = .next t) :
    t.enc.err = .unsupportedValue ∨ t.enc.err = s.enc.err := by
  obtain ⟨e, hw, rfl⟩ := exec_encWrite_next h
  cases ha : rejectsWrite w false s.enc
  · exact .inr (writePath_leavesErr s.cfg ha rfl e hw)
  · rw [writePath_rejected ha] at hw
    cases hw
    exact .inl rfl

theorem exec_encFlush_err (h : exec .encFlush s = .next t) : t.enc.err = s.enc.err := by
  rcases exec_encFlush_next h with ⟨-, rfl⟩ | ⟨-, e, hfin, rfl⟩
  · rfl
  · exact finalize_leavesErr s.cfg rfl e hfin

/-- A command of the encoder's port does not write the decoder (20_memory.md R73). -/
theorem exec_onEncPort_dec (hi : onEncPort i = true) (h : exec i s = .next t) : t.dec = s.dec := by
  rcases onEncPort_cases hi with ⟨w, rfl⟩ | rfl | rfl | rfl
  · obtain ⟨e, -, rfl⟩ := exec_encWrite_next h; rfl
  · rcases exec_encFlush_next h with ⟨-, rfl⟩ | ⟨-, e, -, rfl⟩ <;> rfl
  · cases h; rfl
  · cases h; rfl

/-! ### Each command and the decoder's error -/

theorem setBytes_enc (ibuf : List Byte) (s : State) : (setBytes ibuf s).enc = s.enc := by
  rcases setBytes_cases ibuf s with ⟨-, h⟩ | ⟨-, -, h⟩ | ⟨-, h⟩ <;> rw [h] <;> rfl

/-- DEC_SETBYTES starts a session without error or leaves `TRUNCATED_STREAM` (41_decoder.md R180 to R183). -/
theorem setBytes_ok_err (ibuf : List Byte) (s : State) :
    ((setBytes ibuf s).res.ok = true ∧ (setBytes ibuf s).dec.err = .none) ∨
    ((setBytes ibuf s).res.ok = false ∧ (setBytes ibuf s).dec.err = .truncatedStream) := by
  rcases setBytes_cases ibuf s with ⟨-, h⟩ | ⟨-, -, h⟩ | ⟨-, h⟩ <;> rw [h]
  case inl => exact .inl ⟨rfl, rfl⟩
  case inr.inl => exact .inr ⟨rfl, rfl⟩
  case inr.inr => exact .inl ⟨rfl, rfl⟩

theorem afterChecks_enc (s : State) : (afterChecks s nextRecord).enc = s.enc := by
  rcases afterChecks_cases s nextRecord with ⟨-, h⟩ | ⟨-, -, -, h⟩ | ⟨-, -, -, h⟩ <;> rw [h]
  case inl => rfl
  case inr.inl => rcases seedStep_cases s with ⟨-, hs⟩ | ⟨-, hs⟩ <;> rw [hs]
  case inr.inr =>
    obtain ⟨pos, W, -, ⟨c, -, -, hn⟩ | ⟨-, hn⟩ | ⟨k, idx, -, -, hn⟩⟩ := nextRecord_cases s <;> rw [hn]

/-- DEC_VALUE writes neither unit (41_decoder.md R201). -/
theorem exec_decValue_units (h : exec .decValue s = .next t) : t.enc = s.enc ∧ t.dec = s.dec := by
  have h : execDecValue s = .next t := h
  unfold execDecValue at h
  split at h <;> cases h <;> exact ⟨rfl, rfl⟩

/-- A command of the decoder's port does not write the encoder (20_memory.md R73). -/
theorem exec_onDecPort_enc (hi : onDecPort i = true) (h : exec i s = .next t) : t.enc = s.enc := by
  rcases onDecPort_cases hi with ⟨ibuf, rfl⟩ | rfl | rfl | rfl
  · obtain ⟨-, rfl⟩ := exec_decSetbytes_next h; exact setBytes_enc ibuf s
  · rw [exec_decNext] at h; cases h; exact afterChecks_enc s
  · exact (exec_decValue_units h).1
  · cases h; rfl

/-- A decoder in error reads nothing more and raises no second error (60_exceptions.md R240). -/
theorem exec_decNext_of_err (he : s.dec.err ≠ .none) :
    exec .decNext s = .next { s with res := { s.res with avail := false }, inputInUse := false } :=
  exec_decNext_terminal (terminal_eq_true.2 (.inl he))

/-! ### What clears an error -/

/-- ENC_RESET alone clears the encoder's error (60_exceptions.md R239). -/
theorem encReset_of_enc_err_cleared (hi : onEncPort i = true ∨ onDecPort i = true) (h : exec i s = .next t)
    (he : s.enc.err ≠ .none) (ht : t.enc.err = .none) : i = .encReset := by
  rcases hi with hi | hi
  · rcases onEncPort_cases hi with ⟨w, rfl⟩ | rfl | rfl | rfl
    · rcases exec_encWrite_err h with hk | hk
      · rw [ht] at hk; cases hk
      · exact absurd (hk.symm.trans ht) he
    · exact absurd ((exec_encFlush_err h).symm.trans ht) he
    · cases h; exact absurd ht he
    · rfl
  · rw [exec_onDecPort_enc hi h] at ht; exact absurd ht he

/-- A DEC_SETBYTES that succeeds alone clears the decoder's error (60_exceptions.md R239). -/
theorem decSetbytes_of_dec_err_cleared (hi : onEncPort i = true ∨ onDecPort i = true) (h : exec i s = .next t)
    (he : s.dec.err ≠ .none) (ht : t.dec.err = .none) : ∃ ibuf, i = .decSetbytes ibuf ∧ t.res.ok = true := by
  rcases hi with hi | hi
  · rw [exec_onEncPort_dec hi h] at ht; exact absurd ht he
  · rcases onDecPort_cases hi with ⟨ibuf, rfl⟩ | rfl | rfl | rfl
    · obtain ⟨-, rfl⟩ := exec_decSetbytes_next h
      rcases setBytes_ok_err ibuf s with ⟨hok, -⟩ | ⟨-, hk⟩
      · exact ⟨ibuf, rfl, hok⟩
      · rw [hk] at ht; cases ht
    · rw [exec_decNext_of_err he] at h; cases h; exact absurd ht he
    · rw [(exec_decValue_units h).2] at ht; exact absurd ht he
    · cases h; exact absurd ht he

end

/-- Settles O50: every other command keeps a unit's error or raises one, and DEC_SETBYTES reports in its result
which of the two it did. -/
theorem errorsAreClearedOnlyByRestart : Obligations.ErrorsAreClearedOnlyByRestart := by
  refine ⟨fun i s t hi h => ⟨encReset_of_enc_err_cleared hi h, decSetbytes_of_dec_err_cleared hi h⟩,
    fun s t h => by cases h; rfl, fun ibuf s t h => ?_⟩
  obtain ⟨-, rfl⟩ := exec_decSetbytes_next h
  rcases setBytes_ok_err ibuf s with ⟨hok, hk⟩ | ⟨hok, hk⟩ <;> simp [hok, hk]

/-- Settles O51: the write is rejected and raises the error that stands already; a decoder in error is
terminal. -/
theorem errorsDoNotNest : Obligations.ErrorsDoNotNest := by
  refine ⟨fun s w he hn hf => ?_, fun s he => exec_decNext_of_err he⟩
  have hrej : rejectsWrite w false s.enc = true := by simp [rejectsWrite, hn, hf]
  have hwrite := writePath_rejected (cfg := s.cfg) hrej
  rw [raiseEnc_of_err he] at hwrite
  exact exec_encWrite_of_some hwrite

end Sys2Proof.Machine
end

section
/-! PROOFS. Codes and their instructions (30_encoding.md sections 1 to 4): a record's encoding is read back, and
what is read is its encoding. -/

namespace Sys2Proof.Machine

/-! ### Decoding what was encoded -/

/-- A record that the policy reads is not one it refuses (41_decoder.md R199). -/
theorem not_refused_of_readable {policy : MalformedPolicy} {W : Window} {r : Record}
    (h : r.readable policy W = true) : refusedMalformed policy r = false := by
  cases r with
  | same => rfl
  | reuse m => rfl
  | newWindow lead s6 m =>
    simp only [Record.readable, Bool.and_eq_true, Bool.not_eq_true'] at h
    obtain ⟨hok, -⟩ := h
    exact hok

/-- A record's code is its bits. -/
theorem encode_toInstr (W : Window) (r : Record) : encode W r.toInstr = .recordBits (encodeRecord W r) := by
  cases r <;> rfl

/-- A record that the policy reads is what its own bits decode to (30_encoding.md R110). -/
theorem decode_encodeRecord {policy : MalformedPolicy} {W : Window} {r : Record}
    (h : r.readable policy W = true) : decode policy W (.recordBits (encodeRecord W r)) = .ok r.toInstr := by
  have hread : readRecord (bitsGet (encodeRecord W r)) policy W 0 = .record r :=
    readRecord_encodeRecord (pre := []) (post := []) h (by simp)
  simp [decode, hread, not_refused_of_readable h, Laws.encodeRecord_bits]

theorem decode_encode_record {policy : MalformedPolicy} {W : Window} {r : Record}
    (h : r.readable policy W = true) : decode policy W (encode W r.toInstr) = .ok r.toInstr := by
  rw [encode_toInstr]; exact decode_encodeRecord h

/-- Settles O1: a port's opcode and a seed's 64 bits are read back as written, and a record is read back by
`readRecord_encodeRecord`. -/
theorem decodeInvertsEncode : Obligations.DecodeInvertsEncode := by
  rintro policy cfg W i (h | ⟨r, rfl, h⟩)
  · cases i with
    | encWrite | encFlush | encBytes | encReset | decSetbytes | decNext | decValue | decError | header => rfl
    | seed v => simp [encode, decode, wordOf_bitsOf v.isLt, -bitsOf_succ]
    | same => exact decode_encode_record (r := .same) (readable_of_wf h)
    | reuse m => exact decode_encode_record (r := .reuse m) (readable_of_wf h)
    | newWindow lead s6 m => exact decode_encode_record (r := .newWindow lead s6 m) (readable_of_wf h)
  · exact decode_encode_record h

/-- Settles O2: the reader sees the record's own bits alone. -/
theorem recordReadIsSelfDelimiting : Obligations.RecordReadIsSelfDelimiting := fun _ W r _ _ h =>
  ⟨readRecord_encodeRecord h (List.append_assoc _ _ _), Laws.encodeRecord_bits W r⟩

/-- Settles O5: each code is evaluated by the decoder. -/
theorem writtenCodesDecode : Obligations.WrittenCodesDecode := by
  refine ⟨rfl, rfl, rfl, rfl, ?_, ?_, ?_⟩ <;> decide

/-! ### Reading a bit string -/

section
variable {bits : List Bool} {p : Nat} {c : Word}

/-- A control bit read as 0 is the bit 0. -/
theorem drop_of_bitsGet_zero (h : bitsGet bits p 1 = some c) (hc : c = 0#64) :
    bits.drop p = false :: bits.drop (p + 1) := by
  rw [bitsGet_inv (by decide) h, hc]; rfl

/-- A control bit read as anything else is the bit 1. -/
theorem drop_of_bitsGet_one (h : bitsGet bits p 1 = some c) (hc : c ≠ 0#64) :
    bits.drop p = true :: bits.drop (p + 1) := by
  have hlt := bitsGet_lt h
  have hne : c.toNat ≠ 0 := fun h0 => hc (BitVec.eq_of_toNat_eq h0)
  have h1 : c = 1#64 := BitVec.eq_of_toNat_eq (by simp only [BitVec.toNat_ofNat]; omega)
  rw [bitsGet_inv (by decide) h, h1]; rfl

/-- A field narrower than the reader's word keeps its value in its own width. -/
theorem setWidth_of_bitsGet {k : Nat} (h : bitsGet bits p k = some c) :
    (c.setWidth k).setWidth 64 = c := by
  have hlt := bitsGet_lt h
  apply BitVec.eq_of_toNat_eq
  rw [BitVec.toNat_setWidth, BitVec.toNat_setWidth, Nat.mod_eq_of_lt hlt, Nat.mod_eq_of_lt c.isLt]

end

/-- The reads by which the reader finds each record (41_decoder.md R190, R192 to R195, R199). -/
inductive Finds (get : Nat → Nat → Option Word) (policy : MalformedPolicy) (W : Window) (p : Nat) : Record → Prop where
  | same (h1 : get p 1 = some 0#64) : Finds get policy W p .same
  | reuse {c1 m : Word} (h1 : get p 1 = some c1) (hc1 : c1 ≠ 0#64) (h2 : get (p + 1) 1 = some 0#64)
      (hm : get (p + 2) (windowWidth W) = some m) : Finds get policy W p (.reuse m)
  | refused {c1 c2 l s : Word} (h1 : get p 1 = some c1) (hc1 : c1 ≠ 0#64) (h2 : get (p + 1) 1 = some c2)
      (hc2 : c2 ≠ 0#64) (hl : get (p + 2) 5 = some l) (hs : get (p + 7) 6 = some s)
      (hbad : (malformedNew (l.setWidth 5) (s.setWidth 6) && policy == .error) = true) :
      Finds get policy W p (.newWindow (l.setWidth 5) (s.setWidth 6) 0#64)
  | taken {c1 c2 l s m : Word} (h1 : get p 1 = some c1) (hc1 : c1 ≠ 0#64) (h2 : get (p + 1) 1 = some c2)
      (hc2 : c2 ≠ 0#64) (hl : get (p + 2) 5 = some l) (hs : get (p + 7) 6 = some s)
      (hok : (malformedNew (l.setWidth 5) (s.setWidth 6) && policy == .error) = false)
      (hm : get (p + 13) (sigCount (s.setWidth 6)) = some m) :
      Finds get policy W p (.newWindow (l.setWidth 5) (s.setWidth 6) m)

/-- The reader answers a record exactly where its reads find it. -/
theorem readRecord_eq_record {get : Nat → Nat → Option Word} {policy : MalformedPolicy} {W : Window} {p : Nat}
    {r : Record} : readRecord get policy W p = .record r ↔ Finds get policy W p r := by
  constructor
  · intro h
    unfold readRecord at h
    split at h
    · cases h
    rename_i c1 h1
    split at h
    · rename_i hc1; cases h; exact .same (hc1 ▸ h1)
    rename_i hc1
    split at h
    · cases h
    rename_i c2 h2
    split at h
    · rename_i hc2
      split at h <;> cases h
      rename_i m hm
      exact .reuse h1 hc1 (hc2 ▸ h2) hm
    rename_i hc2
    split at h
    · cases h
    rename_i l hl
    split at h
    · cases h
    rename_i s hs
    dsimp only at h
    split at h
    · rename_i hbad; cases h; exact .refused h1 hc1 h2 hc2 hl hs hbad
    rename_i hok
    split at h <;> cases h
    rename_i m hm
    exact .taken h1 hc1 h2 hc2 hl hs (by simpa using hok) hm
  · intro h
    cases h with
    | same h1 => simp [readRecord, h1]
    | reuse h1 hc1 h2 hm => simp [readRecord, h1, hc1, h2, hm]
    | refused h1 hc1 h2 hc2 hl hs hbad => simp [readRecord, h1, hc1, h2, hc2, hl, hs, hbad]
    | taken h1 hc1 h2 hc2 hl hs hok hm => simp [readRecord, h1, hc1, h2, hc2, hl, hs, hok, hm]

/-- A record that was read and is not refused stands at the position, bit for bit (30_encoding.md R110). -/
theorem drop_of_readRecord {policy : MalformedPolicy} {W : Window} {bits : List Bool} {p : Nat} {r : Record}
    (hW : windowWidth W ≤ 64) (h : readRecord (bitsGet bits) policy W p = .record r)
    (hr : refusedMalformed policy r = false) :
    bits.drop p = encodeRecord W r ++ bits.drop (p + recordLength W r) := by
  cases readRecord_eq_record.1 h with
  | same h1 => exact drop_of_bitsGet_zero h1 rfl
  | reuse h1 hc1 h2 hm =>
    rw [drop_of_bitsGet_one h1 hc1, drop_of_bitsGet_zero h2 rfl, bitsGet_inv hW hm]
    simp [encodeRecord, recordLength, Nat.add_assoc]
  | refused _ _ _ _ _ _ hbad => rw [refusedMalformed, hbad] at hr; cases hr
  | taken h1 hc1 h2 hc2 hl hs _ hm =>
    rw [drop_of_bitsGet_one h1 hc1, drop_of_bitsGet_one h2 hc2, bitsGet_inv (by decide) hl,
      bitsGet_inv (by decide) hs, bitsGet_inv (sigCount_le _) hm]
    simp [encodeRecord, recordLength, setWidth_of_bitsGet hl, setWidth_of_bitsGet hs, Nat.add_assoc]

/-- Settles O3: the record read stands there bit for bit, and decoding accepts no bit after it. -/
theorem decodedRecordReencodes : Obligations.DecodedRecordReencodes := by
  intro policy W bits i _ hW h
  simp only [decode] at h
  split at h
  · cases h
  rename_i r hread
  split at h
  · cases h
  rename_i hr
  split at h <;> cases h
  rename_i hlen
  have hdrop := drop_of_readRecord hW hread (by simpa using hr)
  rw [Nat.zero_add, ← hlen, List.drop_length, List.append_nil, List.drop_zero] at hdrop
  rw [encode_toInstr, ← hdrop]

/-- The longest record is a NEW record of 64 significant bits (30_encoding.md R118). -/
theorem recordLength_le {W : Window} (hW : windowWidth W ≤ 64) (r : Record) : recordLength W r ≤ 77 := by
  cases r with
  | same => exact (by decide : 1 ≤ 77)
  | reuse m => simp only [recordLength]; omega
  | newWindow lead s6 m => have := sigCount_le s6; simp only [recordLength]; omega

/-- Settles O4: no read of the reader passes bit 77. -/
theorem everyLongStringStartsWithRecord : Obligations.EveryLongStringStartsWithRecord := by
  intro policy W bits _ hW hlen
  have hget : ∀ p n, p + n ≤ 77 → ∃ v, bitsGet bits p n = some v := fun p n h =>
    ⟨_, if_pos (Nat.le_trans h hlen)⟩
  suffices h : ∃ r, readRecord (bitsGet bits) policy W 0 = .record r by
    obtain ⟨r, hr⟩ := h
    exact ⟨r, hr, recordLength_le hW r⟩
  obtain ⟨c1, h1⟩ := hget 0 1 (by decide)
  obtain ⟨c2, h2⟩ := hget (0 + 1) 1 (by decide)
  obtain ⟨m, hm⟩ := hget (0 + 2) (windowWidth W) (by omega)
  obtain ⟨l, hl⟩ := hget (0 + 2) 5 (by decide)
  obtain ⟨s, hs⟩ := hget (0 + 7) 6 (by decide)
  obtain ⟨m', hm'⟩ := hget (0 + 13) (sigCount (s.setWidth 6)) (by have := sigCount_le (s.setWidth 6); omega)
  simp only [readRecord, h1, h2, hm, hl, hs, hm']
  split
  · exact ⟨_, rfl⟩
  split
  · exact ⟨_, rfl⟩
  split
  · exact ⟨_, rfl⟩
  · exact ⟨_, rfl⟩

end Sys2Proof.Machine
end

section
/-! PROOFS. The step, one rule per event of the host (20_memory.md section 5, 70_reset_and_hazards.md). -/

namespace Sys2Proof.Machine

section
variable {s : State} {p q : PortWord} {events : List HostEvent}

theorem step_idle (h : s.inbox = []) : step s = .next s := by
  simp [step, fetch, h]

theorem step_command (h : s.inbox = .command p :: events) :
    step s = exec (decodePort p) { s with inbox := events } := by
  simp [step, fetch, h]

/-- Commands on the two units: the first is executed and the second waits (20_memory.md R73). -/
theorem step_together (h : s.inbox = .together p q :: events) (hne : p.unit ≠ q.unit) :
    step s = exec (decodePort p) { s with inbox := .command q :: events } := by
  simp [step, fetch, h, hne]

theorem step_clash (h : s.inbox = .together p q :: events) (heq : p.unit = q.unit) :
    step s = .refused .concurrentCommands := by
  simp [step, fetch, h, heq]

theorem step_changeInput (h : s.inbox = .changeInput :: events) :
    step s = hostChangesInput { s with inbox := events } := by
  simp [step, fetch, h]

end

/-- Settles O6: a table word is placed as a command at the head of what waits. -/
theorem stepRunsIssuedCommand : Obligations.StepRunsIssuedCommand :=
  ⟨fun _ _ _ => step_command, fun s nbits w => ⟨_, rfl, step_command (s := s.withFetchWord nbits w) rfl⟩⟩

/-- Settles O7: the event is fetched as two commands in turn or as a clash. -/
theorem simultaneousCommands : Obligations.SimultaneousCommands := fun _ _ _ _ h => ⟨step_together h, step_clash h⟩

/-- Settles O8: a change of the host's copy is refused in a session that reads it in place, and nothing else
happens. -/
theorem idleBlockKeepsState : Obligations.IdleBlockKeepsState := by
  refine ⟨fun s => step_idle, fun s rest h => ⟨fun hno => ?_, fun hin huse => ?_⟩⟩ <;>
    rw [step_changeInput h, hostChangesInput]
  · rw [if_neg]
    rcases hno with h0 | h0 <;> simp [h0]
  · rw [if_pos (by simp [hin, huse])]

end Sys2Proof.Machine
end

section
/-! PROOFS. The machine's invariant: power-on meets it and every step keeps it (10_state.md sections 1, 2
and 5). -/

namespace Sys2Proof.Machine

/-! ### The port commands -/

theorem decodeEncPort_onEncPort (ecmd : BitVec 2) (wdata : Word) : onEncPort (decodeEncPort ecmd wdata) = true := by
  unfold decodeEncPort
  split
  · rfl
  split
  · rfl
  split <;> rfl

theorem decodeDecPort_onDecPort (dcmd : BitVec 2) (ibuf : List Byte) :
    onDecPort (decodeDecPort dcmd ibuf) = true := by
  unfold decodeDecPort
  split
  · rfl
  split
  · rfl
  split <;> rfl

/-- The signals of a port name a command of that port (30_encoding.md R114 to R116). -/
theorem decodePort_onPort (p : PortWord) : onEncPort (decodePort p) = true ∨ onDecPort (decodePort p) = true := by
  cases p with
  | enc ecmd wdata => exact .inl (decodeEncPort_onEncPort ecmd wdata)
  | dec dcmd ibuf => exact .inr (decodeDecPort_onDecPort dcmd ibuf)

/-- What the host has issued: the state before the next event. -/
def withInbox (events : List HostEvent) (s : State) : State := { s with inbox := events }

/-- All that a step that answers a next state has done: nothing, one command, or a change of the host's input
copy that has no effect. -/
theorem step_next {s t : State} (h : step s = .next t) :
    t = s ∨ (∃ events, t = withInbox events s) ∨
    ∃ p events, exec (decodePort p) (withInbox events s) = .next t := by
  cases hin : s.inbox with
  | nil => rw [step_idle hin] at h; cases h; exact .inl rfl
  | cons event events =>
    cases event with
    | command p => rw [step_command hin] at h; exact .inr (.inr ⟨p, events, h⟩)
    | together p q =>
      by_cases heq : p.unit = q.unit
      · rw [step_clash hin heq] at h; cases h
      · rw [step_together hin heq] at h; exact .inr (.inr ⟨p, .command q :: events, h⟩)
    | changeInput =>
      rw [step_changeInput hin, hostChangesInput] at h
      split at h <;> cases h
      exact .inr (.inl ⟨events, rfl⟩)

/-! ### Power-on -/

theorem fitsCap_of_wf {cfg : Config} (h : cfg.wf = true) : fitsCap cfg.outCap 1 = true :=
  fitsCap_mono (fitsCap_nine h) (by decide)

/-- The newly constructed encoder holds the header byte and nothing else (10_state.md R33). -/
theorem Enc.inv_powerOn {cfg : Config} (h : cfg.wf = true) : (Enc.powerOn cfg).Inv cfg :=
  ⟨(Enc.writing_powerOn cfg).packed, rfl, fitsCap_of_wf h, .inl rfl, (Enc.writing_powerOn cfg).legal,
    fun _ => ⟨rfl, rfl, rfl, rfl⟩, by simp [Enc.powerOn]⟩

/-- A window a decoder without error may hold: it carries 1 to 64 bits, and a 6-bit register holds its trailing
count unless malformed records wrap it (41_decoder.md R196, R200). -/
def LegalWindow (policy : MalformedPolicy) (W : Window) : Prop :=
  (policy = .error → W.trail.toNat ≤ 63) ∧ 1 ≤ windowWidth W ∧ windowWidth W ≤ 64

section
variable {cfg : Config} {gotValue inUse : Bool} {d : Dec} (ha : d.Attached)
  (hcap : fitsCap cfg.inCap d.inp.size = true)
include ha hcap

/-- A session before its first DEC_NEXT meets the invariant: it has its first window, has returned no value, and
is in use unless its seed is the sentinel. -/
theorem Dec.inv_seeded (herr : d.err ≠ .unsupportedValue) (hW : d.window = ⟨0#5, 0#64⟩) (h1 : d.first = true)
    (hf : d.finished = false) (huse : inUse = true ∨ d.cur = cfg.sentinel) : d.Inv cfg false inUse := by
  have htrail : d.trail = 0#64 := congrArg Window.trail hW
  have hwidth : windowWidth d.window = 64 := by rw [hW]; rfl
  exact ⟨ha, hcap, herr, by simp [htrail], by omega, fun _ => ⟨hf, rfl⟩, by simp, by simp [h1], fun _ => huse,
    by simp [h1]⟩

/-- A session that has returned a value and has not ended meets the invariant. -/
theorem Dec.inv_running (he : d.err = .none) (hf : d.finished = false) (h1 : d.first = false)
    (hW : LegalWindow cfg.malformed d.window) (hc : d.cur ≠ cfg.sentinel) (huse : inUse = true) :
    d.Inv cfg true inUse := by
  obtain ⟨htrail, hwidth⟩ := hW
  exact ⟨ha, hcap, by simp [he], htrail, fun _ => hwidth, by simp [h1], fun _ => hc, by simp, fun _ => .inl huse,
    by simp [terminal_eq_false.2 ⟨he, hf⟩]⟩

/-- A session that has ended, at its end or by an error, meets the invariant. -/
theorem Dec.inv_ended (herr : d.err ≠ .unsupportedValue) (ht : terminal d = true) (h1 : d.first = false)
    (htrail : cfg.malformed = .error → d.trail.toNat ≤ 63)
    (hwidth : d.err = .none → 1 ≤ windowWidth d.window ∧ windowWidth d.window ≤ 64)
    (hc : gotValue = true → d.cur ≠ cfg.sentinel) : d.Inv cfg gotValue false := by
  refine ⟨ha, hcap, herr, htrail, hwidth, by simp [h1], hc, fun _ he hf => ?_, by simp [ht], fun _ _ => rfl⟩
  rw [terminal_eq_false.2 ⟨he, hf⟩] at ht; cases ht

end

/-- Power-on meets the invariant. -/
theorem State.inv_powerOn {cfg : Config} (h : cfg.wf = true) : (State.powerOn cfg).Inv :=
  ⟨h, Enc.inv_powerOn h,
    Dec.inv_seeded ⟨rfl, rfl, rfl, Nat.le_refl 0⟩ (fitsCap_zero _) nofun rfl rfl rfl (.inr rfl)⟩

/-- Settles O58: the encoder holds the header alone and the decoder a session on the sentinel; the reset
configuration is legal. -/
theorem powerOnMeetsInvariant : Obligations.PowerOnMeetsInvariant :=
  ⟨fun _ => State.inv_powerOn, State.inv_powerOn (by decide)⟩

/-- Settles O56: ENC_RESET leaves the power-on registers, the header byte with its low four bits 0. -/
theorem encoderPowerOnState : Obligations.EncoderPowerOnState := by
  intro cfg
  have hheader : headerByte cfg.headerId = cfg.headerId ++ 0#4 := by
    generalize cfg.headerId = id
    revert id; decide
  refine ⟨?_, fun s hs => ⟨_, resetRestoresPowerOn s, by rw [hs]; rfl⟩⟩
  rw [← hheader]; rfl

/-! ### The encoder's commands -/

section
variable {cfg : Config} {w : Word} {bypass : Bool} {e e' : Enc}

/-- Bytes appended to OUT leave the header where it stands (10_state.md R29). -/
theorem Enc.Inv.header_of_appended {bits : List Bool} (h : e.Inv cfg) (ha : e.Appended e' bits) :
    e'.out.read 0 = some (headerByte cfg.headerId) := by
  obtain ⟨⟨-, hsize, -⟩, h0, -⟩ := h
  rw [ha.kept 0 hsize, h0]

/-- What an accepted write leaves meets the invariant, where the value may be a NaN in a finalized stream alone
(40_encoder.md R140 to R148). -/
theorem Enc.Inv.of_afterWrite {bits : List Bool} {finished : Bool} (h : e.Inv cfg) (ha : e.Appended e' bits)
    (hfit : fitsCap cfg.outCap e'.out.size = true)
    (ho : Enc.OnlyPacker { afterWrite cfg w e with finished := finished } e')
    (hnan : finished = false → isNaN w = false) : e'.Inv cfg := by
  have h0 := h.header_of_appended ha
  obtain ⟨-, -, -, herr, hwin, -, -⟩ := h
  obtain ⟨hprev, hfirst, herr', -⟩ := afterWrite_fields cfg w e
  refine ⟨ha.packed, h0, hfit, ?_, ?_, ?_, ?_⟩ <;> rw [ho]
  · rw [herr']; exact herr
  · exact afterWrite_window_legal hwin
  · intro hf; exact absurd (hfirst.symm.trans hf) Bool.false_ne_true
  · intro _ hfin; rw [hprev]; exact hnan hfin

/-- A rejected write changes the error alone (40_encoder.md R141). -/
theorem Enc.Inv.raiseEnc (h : e.Inv cfg) : (raiseEnc .unsupportedValue e).Inv cfg := by
  obtain ⟨hp, h0, hfit, -, hrest⟩ := h
  exact ⟨hp, h0, hfit, .inr rfl, hrest⟩

theorem Enc.Inv.write (h : e.Inv cfg) (hs : writePath cfg w false e = some e') : e'.Inv cfg := by
  cases ha : rejectsWrite w false e
  · have ⟨hp, _, hfit, _, hwin, _⟩ := h
    obtain ⟨ho, happ, hfit'⟩ := writePath_some hp hwin ha hfit hs
    obtain ⟨-, -, -, hfin⟩ := afterWrite_fields cfg w e
    refine h.of_afterWrite (finished := e.finished) happ hfit' (by rw [← hfin]; exact ho) fun hf => ?_
    simpa [rejectsWrite, hf] using ha
  · rw [writePath_rejected ha] at hs
    cases hs; exact h.raiseEnc

theorem Enc.Inv.finalize (h : e.Inv cfg) (hs : finalize cfg e = some e') : e'.Inv cfg := by
  have ⟨hp, _, hfit, _, hwin, _⟩ := h
  obtain ⟨ho, happ, hfit'⟩ := finalize_some hp hwin hfit hs
  exact h.of_afterWrite happ hfit' ho fun hf => nomatch hf

end

/-- Every command of the encoder's port keeps the invariant. -/
theorem exec_onEncPort_inv {i : Instr} {s t : State} (hi : onEncPort i = true) (hs : s.Inv)
    (h : exec i s = .next t) : t.Inv := by
  have ⟨hcfg, henc, hdec⟩ := hs
  rcases onEncPort_cases hi with ⟨w, rfl⟩ | rfl | rfl | rfl
  · obtain ⟨e, hw, rfl⟩ := exec_encWrite_next h
    exact ⟨hcfg, henc.write hw, hdec⟩
  · rcases exec_encFlush_next h with ⟨-, rfl⟩ | ⟨-, e, hfin, rfl⟩
    · exact hs
    · exact ⟨hcfg, henc.finalize hfin, hdec⟩
  · cases h; exact hs
  · cases h; exact ⟨hcfg, Enc.inv_powerOn hcfg, hdec⟩

/-! ### The decoder's commands -/

/-- The bytes of a non-empty buffer after its header, attached as the stream. -/
theorem Dec.attached_ofBytes {ibuf : List Byte} {d : Dec} (h1 : 1 ≤ ibuf.length) (hi : d.inp = Memory.ofBytes ibuf)
    (hs : d.hasStream = true) (hl : d.lim = 8 * (ibuf.length - 1)) (hp : d.pos ≤ d.lim) : d.Attached := by
  refine ⟨by rw [hi]; exact Memory.wf_ofBytes ibuf, ?_, by rw [hi, Memory.size_ofBytes, hl], hp⟩
  rw [hi, Memory.size_ofBytes, hs]
  exact (decide_eq_true (by omega)).symm

/-- DEC_SETBYTES starts a session in every case (41_decoder.md R180 to R183). -/
theorem setBytes_inv {s : State} {ibuf : List Byte} (hs : s.Inv) (hfit : fitsCap s.cfg.inCap ibuf.length = true) :
    (setBytes ibuf s).Inv := by
  obtain ⟨hcfg, henc, -⟩ := hs
  rcases setBytes_cases ibuf s with ⟨rfl, h⟩ | ⟨h1, -, h⟩ | ⟨h9, h⟩ <;> rw [h]
  case inl =>
    exact ⟨hcfg, henc, Dec.inv_seeded ⟨rfl, rfl, rfl, Nat.le_refl 0⟩ (fitsCap_zero _) nofun rfl rfl rfl
      (.inl rfl)⟩
  case inr.inl =>
    refine ⟨hcfg, henc, Dec.inv_seeded (Dec.attached_ofBytes h1 rfl rfl rfl (Nat.zero_le _)) ?_ nofun rfl rfl
      rfl (.inl rfl)⟩
    rw [failSession_dec_inp, Memory.size_ofBytes]; exact hfit
  case inr.inr =>
    refine ⟨hcfg, henc, Dec.inv_seeded (Dec.attached_ofBytes (by omega) rfl rfl rfl ?_) ?_ nofun rfl rfl
      rfl (.inl rfl)⟩
    · simp only [takeSeed_dec_pos, takeSeed_dec_lim]; omega
    · rw [takeSeed_dec_inp, Memory.size_ofBytes]; exact hfit

theorem newRecordWindow_legal {policy : MalformedPolicy} {lead : BitVec 5} {s6 : BitVec 6}
    (h : malformedNew lead s6 = false ∨ policy = .goWrap) : LegalWindow policy (newRecordWindow lead s6) := by
  refine ⟨fun hp => ?_, by rw [windowWidth_new]; exact sigCount_pos s6, by rw [windowWidth_new]; exact sigCount_le s6⟩
  have hm : malformedNew lead s6 = false := h.resolve_right (by rw [hp]; decide)
  have hle : lead.toNat + sigCount s6 ≤ 64 := Nat.le_of_not_lt (of_decide_eq_false hm)
  have hpos := sigCount_pos s6
  rw [newRecordWindow_trail, if_pos hle]; omega

/-- Every record leaves a legal window (41_decoder.md R195). -/
theorem WindowAfter.legal {policy : MalformedPolicy} {W W' : Window} (h : WindowAfter policy W W')
    (hW : LegalWindow policy W) : LegalWindow policy W' := by
  rcases h with rfl | ⟨lead, s6, rfl, hok⟩
  · exact hW
  · exact newRecordWindow_legal hok

theorem seedStep_inv {s : State} (hs : s.Inv) (he : s.dec.err = .none) (hf : s.dec.finished = false)
    (h1 : s.dec.first = true) : (seedStep s).Inv := by
  obtain ⟨hcfg, henc, hatt, hcap, herr, htrail, hwidth, hfirst, -, -, huse, -⟩ := hs
  obtain ⟨-, hgot⟩ := hfirst h1
  rcases seedStep_cases s with ⟨-, h⟩ | ⟨hne, h⟩ <;> rw [h]
  · exact ⟨hcfg, henc, Dec.inv_ended hatt hcap herr (terminal_eq_true.2 (.inr rfl)) rfl htrail hwidth
      (by simp [hgot])⟩
  · exact ⟨hcfg, henc, Dec.inv_running hatt hcap he hf rfl ⟨htrail, hwidth he⟩ hne
      ((huse (terminal_eq_false.2 ⟨he, hf⟩)).resolve_right hne)⟩

theorem nextRecord_inv {s : State} (hs : s.Inv) (he : s.dec.err = .none) (hf : s.dec.finished = false)
    (h1 : s.dec.first = false) : (nextRecord s).Inv := by
  obtain ⟨hcfg, henc, ⟨hwf, hstream, hlim, hpos⟩, hcap, herr, htrail, hwidth, -, hgot, hpast, huse, -⟩ := hs
  have hcur : s.dec.cur ≠ s.cfg.sentinel := hgot (hpast h1 he hf)
  have hW : LegalWindow s.cfg.malformed s.dec.window := ⟨htrail, hwidth he⟩
  obtain ⟨pos, W, hp, ⟨c, hc, hA, h⟩ | ⟨hA, h⟩ | ⟨k, idx, hk, ht, h⟩⟩ := nextRecord_cases s <;> rw [h]
  case inl =>
    exact ⟨hcfg, henc, Dec.inv_running ⟨hwf, hstream, hlim, hp hpos⟩ hcap he hf h1 (hA.legal hW)
      (hc.elim (fun heq => heq ▸ hcur) id) ((huse (terminal_eq_false.2 ⟨he, hf⟩)).resolve_right hcur)⟩
  case inr.inl =>
    obtain ⟨htrail', hwidth'⟩ := hA.legal hW
    exact ⟨hcfg, henc, Dec.inv_ended ⟨hwf, hstream, hlim, hp hpos⟩ hcap herr (terminal_eq_true.2 (.inr rfl)) h1
      htrail' (fun _ => hwidth') hgot⟩
  case inr.inr =>
    obtain ⟨hnone, hunsupported⟩ : k ≠ .none ∧ k ≠ .unsupportedValue := by rcases hk with rfl | rfl <;> decide
    exact ⟨hcfg, henc, Dec.inv_ended ⟨hwf, hstream, hlim, hp hpos⟩ hcap hunsupported
      (terminal_eq_true.2 (.inl hnone)) h1 (fun hm => ht hm (htrail hm)) (fun h => absurd h hnone) hgot⟩

/-- DEC_NEXT of a terminal unit ends its session at the latest now (70_reset_and_hazards.md R273). -/
theorem returnNone_inv {s : State} (hs : s.Inv) (ht : terminal s.dec = true) : (returnNone s).Inv := by
  obtain ⟨hcfg, henc, hatt, hcap, herr, htrail, hwidth, hfirst, hgot, hpast, -, -⟩ := hs
  exact ⟨hcfg, henc, hatt, hcap, herr, htrail, hwidth, hfirst, hgot, hpast, by simp [ht], fun _ _ => rfl⟩

theorem afterChecks_inv {s : State} (hs : s.Inv) : (afterChecks s nextRecord).Inv := by
  rcases afterChecks_cases s nextRecord with ⟨ht, h⟩ | ⟨he, hf, h1, h⟩ | ⟨he, hf, h1, h⟩ <;> rw [h]
  · exact returnNone_inv hs ht
  · exact seedStep_inv hs he hf h1
  · exact nextRecord_inv hs he hf h1

/-- DEC_VALUE writes its result line, and before the first value of a session draws it freely (41_decoder.md
R201). -/
theorem exec_decValue_cases (s : State) :
    (s.gotValue = true ∧ exec .decValue s = .next { s with res := { s.res with rdata := s.dec.cur } }) ∨
    (s.gotValue = false ∧ exec .decValue s = .next { s with
      res := { s.res with rdata := Config.freeWord s.freeIdx }, freeIdx := s.freeIdx + 1 }) := by
  by_cases hg : s.gotValue = true
  · exact .inl ⟨hg, exec_decValue_of_gotValue hg⟩
  · exact .inr ⟨by simpa using hg, if_neg hg⟩

/-- Every command of the decoder's port keeps the invariant. -/
theorem exec_onDecPort_inv {i : Instr} {s t : State} (hi : onDecPort i = true) (hs : s.Inv)
    (h : exec i s = .next t) : t.Inv := by
  rcases onDecPort_cases hi with ⟨ibuf, rfl⟩ | rfl | rfl | rfl
  · obtain ⟨hfit, rfl⟩ := exec_decSetbytes_next h
    exact setBytes_inv hs hfit
  · rw [exec_decNext] at h
    cases h; exact afterChecks_inv hs
  · rcases exec_decValue_cases s with ⟨-, hv⟩ | ⟨-, hv⟩ <;> rw [hv] at h <;> cases h <;> exact hs
  · cases h; exact hs

/-- Settles O59: a step is idle, takes an event that changes nothing, or executes a command of one port, and the
commands of either port keep the invariant, which does not speak of what is waiting. -/
theorem stepKeepsInvariant : Obligations.StepKeepsInvariant := by
  intro s t hs h
  rcases step_next h with rfl | ⟨events, rfl⟩ | ⟨p, events, hexec⟩
  · exact hs
  · exact hs
  · have hs' : (withInbox events s).Inv := hs
    exact (decodePort_onPort p).elim (exec_onEncPort_inv · hs' hexec) (exec_onDecPort_inv · hs' hexec)

end Sys2Proof.Machine
end

section
/-! PROOFS. DEC_SETBYTES, HEADER and SEED, DEC_VALUE (41_decoder.md sections 1 and 3). -/

namespace Sys2Proof.Machine

/-! ### DEC_SETBYTES, HEADER and SEED -/

/-- HEADER of a non-empty buffer attaches the bytes after it (41_decoder.md R182). -/
theorem skipHeader_of_pos {s : State} (h : 1 ≤ s.dec.inp.size) : skipHeader s =
    { s with dec := { s.dec with hasStream := true, lim := 8 * (s.dec.inp.size - 1), pos := 0 } } := by
  have hne : decide (s.dec.inp.size ≠ 0) = true := decide_eq_true (by omega)
  rw [skipHeader, hne]

/-- Settles O46: the header byte is not looked at, and SEED overwrites every register of the session. -/
theorem headerAndSeedStartStream : Obligations.HeaderAndSeedStartStream :=
  ⟨fun _ _ h => congrArg Host.Outcome.next (skipHeader_of_pos h), fun _ _ => rfl⟩

/-- An input of 9 bytes or more is accepted with its first 64 stream bits as the seed (41_decoder.md R182). -/
theorem setBytes_long {ibuf : List Byte} (s : State) (h9 : 9 ≤ ibuf.length) :
    setBytes ibuf s = takeSeed (wordOf ((streamOf ibuf).take 64))
      { s with dec := { s.dec with inp := Memory.ofBytes ibuf, pos := 0, hasStream := true,
                                   lim := 8 * (ibuf.length - 1) } } := by
  rcases setBytes_cases ibuf s with ⟨rfl, -⟩ | ⟨-, h8, -⟩ | ⟨-, h⟩
  · exact absurd h9 (by decide)
  · omega
  · exact h

/-- An input of 1 to 8 bytes fails (41_decoder.md R183). -/
theorem setBytes_short {ibuf : List Byte} (s : State) (h1 : 1 ≤ ibuf.length) (h8 : ibuf.length ≤ 8) :
    setBytes ibuf s = failSession
      { s with dec := { s.dec with inp := Memory.ofBytes ibuf, pos := 0, hasStream := true,
                                   lim := 8 * (ibuf.length - 1) } } := by
  rcases setBytes_cases ibuf s with ⟨rfl, -⟩ | ⟨-, -, h⟩ | ⟨h9, -⟩
  · exact absurd h1 (by decide)
  · exact h
  · omega

/-- Settles O10: both take the same seed from the same attached stream. -/
theorem setbytesRunsHeaderAndSeed : Obligations.SetbytesRunsHeaderAndSeed := by
  intro s b rest hfit h8
  refine ⟨_, congrArg Host.Outcome.next (skipHeader_of_pos ?_), ?_⟩
  · simp only [Memory.size_ofBytes, List.length_cons]; omega
  · rw [exec_decSetbytes_of_fits (ibuf := b :: rest) hfit,
      setBytes_long s (ibuf := b :: rest) (by simp only [List.length_cons]; omega)]
    simp only [Memory.size_ofBytes]
    rfl

/-- Settles O30: the seed is the word of the first 64 bits, which spell it back. -/
theorem longInputStartsSession : Obligations.LongInputStartsSession := by
  intro s ibuf hfit h9
  have hlen : ((streamOf ibuf).take 64).length = 64 := by
    simp only [List.length_take, streamOf_length]; omega
  have hbits := bitsOf_wordOf ((streamOf ibuf).take 64) (by omega)
  rw [hlen] at hbits
  refine ⟨_, hbits, rfl, ?_⟩
  rw [exec_decSetbytes_of_fits hfit, setBytes_long s h9]
  rfl

/-- Settles O31: the failed session is in error, so DEC_NEXT reads nothing. -/
theorem shortInputFails : Obligations.ShortInputFails := by
  intro s ibuf hfit h1 h8
  refine ⟨Config.freeWord s.freeIdx, _, ?_, rfl, exec_decNext_terminal rfl, rfl⟩
  rw [exec_decSetbytes_of_fits hfit, setBytes_short s h1 h8]
  rfl

/-- Settles O32: the length check comes first, and after it DEC_SETBYTES always completes. -/
theorem setbytesRefusedOverCapacity : Obligations.SetbytesRefusedOverCapacity := fun _ _ =>
  ⟨fun h => if_neg (by rw [h]; exact Bool.false_ne_true), fun h => ⟨_, exec_decSetbytes_of_fits h⟩⟩

/-! ### DEC_VALUE -/

/-- Settles O43: the session has a value, which DEC_VALUE returns. -/
theorem valueReadsCurrent : Obligations.ValueReadsCurrent := fun _ => exec_decValue_of_gotValue

/-- Settles O44: without a value the result is the next free word. -/
theorem valueBeforeFirstIsFree : Obligations.ValueBeforeFirstIsFree := by
  intro s hg
  rcases exec_decValue_cases s with ⟨hg', -⟩ | ⟨-, h⟩
  · rw [hg] at hg'; cases hg'
  · exact ⟨_, h⟩

end Sys2Proof.Machine
end

section
/-! PROOFS. DEC_NEXT and the records (41_decoder.md R190 to R204). -/

namespace Sys2Proof.Machine

/-! ### The record at the cursor -/

/-- A record executed alone is the record of a DEC_NEXT, after the same checks. -/
theorem exec_toInstr (r : Record) (s : State) : exec r.toInstr s = .next (afterChecks s (runRecord r)) := by
  cases r <;> rfl

/-- Settles O9: DEC_NEXT finds the record and runs it. -/
theorem decNextRunsRecordAtCursor : Obligations.DecNextRunsRecordAtCursor := by
  intro s r post ha hr hrest
  have hnext : nextRecord s = runRecord r s := by rw [nextRecord, fetchRecord_of_rest ha hr hrest]
  rw [exec_toInstr, exec_decNext, afterChecks, afterChecks, hnext]

/-- A record of a session past its seed. -/
theorem exec_toInstr_go {s : State} (r : Record) (he : s.dec.err = .none) (hf : s.dec.finished = false)
    (h1 : s.dec.first = false) : exec r.toInstr s = .next (runRecord r s) := by
  rw [exec_toInstr, afterChecks_go he hf h1]

/-- Settles O41: DEC_NEXT of a terminal unit leaves a state that DEC_NEXT keeps. -/
theorem terminalDecoderStaysTerminal : Obligations.TerminalDecoderStaysTerminal := by
  intro s n ht
  rw [List.replicate_succ, runAll, exec_decNext_terminal ht]
  exact runAll_replicate_of_fixed (s := returnNone s) (exec_decNext_terminal ht) n

/-! ### Windowed records -/

/-- A shift by at most 63 is the plain shift (41_decoder.md R196). -/
theorem deltaOf_of_le {trail : Word} (h : trail.toNat ≤ 63) (m : Word) : deltaOf trail m = m <<< trail.toNat :=
  if_pos h

/-- A shift by 64 or more leaves no bit (41_decoder.md R200). -/
theorem deltaOf_of_gt {trail : Word} (h : 63 < trail.toNat) (m : Word) : deltaOf trail m = 0#64 :=
  if_neg (Nat.not_le_of_lt h)

/-- What a windowed record of `n` bits does under the window `W` it leaves in force: the candidate `c` ends the
stream or is the next value (41_decoder.md R196, R197). -/
theorem takeDelta_passRecord {n : Nat} {W : Window} {m c : Word} {s : State}
    (h : s.dec.cur ^^^ deltaOf W.trail m = c) : takeDelta m (passRecord n W s) =
      if c = s.cfg.sentinel
      then { s with dec := { s.dec with pos := s.dec.pos + n, lead := W.lead, trail := W.trail, finished := true },
                    res := { s.res with avail := false }, inputInUse := false }
      else { s with dec := { s.dec with pos := s.dec.pos + n, lead := W.lead, trail := W.trail, cur := c },
                    res := { s.res with avail := true }, gotValue := true } := by
  subst h
  split
  · rename_i hc; exact takeDelta_of_end hc
  · rename_i hc; exact takeDelta_of_value hc

/-- A REUSE record of a session past its seed. -/
theorem exec_reuse_go {m c : Word} {s : State} (he : s.dec.err = .none) (hf : s.dec.finished = false)
    (h1 : s.dec.first = false) (hc : s.dec.cur ^^^ deltaOf s.dec.trail m = c) : exec (.reuse m) s = .next (
      if c = s.cfg.sentinel
      then { s with dec := { s.dec with pos := s.dec.pos + (2 + windowWidth s.dec.window), finished := true },
                    res := { s.res with avail := false }, inputInUse := false }
      else { s with dec := { s.dec with pos := s.dec.pos + (2 + windowWidth s.dec.window), cur := c },
                    res := { s.res with avail := true }, gotValue := true }) :=
  (exec_toInstr_go (.reuse m) he hf h1).trans
    (congrArg Host.Outcome.next (takeDelta_passRecord (W := s.dec.window) hc))

/-- Settles O36: the delta applies under the window in force. -/
theorem reuseRecordAppliesDelta : Obligations.ReuseRecordAppliesDelta := fun s m he hf h1 htrail =>
  exec_reuse_go he hf h1 (congrArg (s.dec.cur ^^^ ·) (deltaOf_of_le htrail m))

/-- A NEW record that the policy takes, of a session past its seed. -/
theorem exec_newWindow_go {lead : BitVec 5} {s6 : BitVec 6} {m : Word} {s : State} (he : s.dec.err = .none)
    (hf : s.dec.finished = false) (h1 : s.dec.first = false)
    (hok : (malformedNew lead s6 && s.cfg.malformed == .error) = false) : exec (.newWindow lead s6 m) s =
      .next (takeDelta m (passRecord (13 + sigCount s6) (newRecordWindow lead s6) s)) :=
  (exec_toInstr_go (.newWindow lead s6 m) he hf h1).trans (congrArg Host.Outcome.next (recordNew_taken hok))

/-- The window of a well-formed NEW record (41_decoder.md R195). -/
theorem newRecordWindow_of_le {lead : BitVec 5} {s6 : BitVec 6} (h : lead.toNat + sigCount s6 ≤ 64) :
    newRecordWindow lead s6 = ⟨lead, BitVec.ofNat 64 (64 - lead.toNat - sigCount s6)⟩ := by
  refine congrArg (Window.mk lead) (BitVec.eq_of_toNat_eq ?_)
  have ht := newRecordWindow_trail lead s6
  rw [if_pos h] at ht
  rw [BitVec.toNat_ofNat, Nat.mod_eq_of_lt (by omega)]
  exact ht

theorem malformedNew_eq_false {lead : BitVec 5} {s6 : BitVec 6} (h : lead.toNat + sigCount s6 ≤ 64) :
    malformedNew lead s6 = false :=
  decide_eq_false (by omega)

theorem malformedNew_eq_true {lead : BitVec 5} {s6 : BitVec 6} (h : 64 < lead.toNat + sigCount s6) :
    malformedNew lead s6 = true :=
  decide_eq_true h

/-- Settles O37: a well-formed record is taken by every policy, and its delta applies under its own window. -/
theorem newRecordSetsWindowAndAppliesDelta : Obligations.NewRecordSetsWindowAndAppliesDelta := by
  intro s lead s6 m he hf h1 S T hle c d
  have hle' : lead.toNat + sigCount s6 ≤ 64 := hle
  have hW : newRecordWindow lead s6 = ⟨lead, BitVec.ofNat 64 T⟩ := newRecordWindow_of_le hle'
  have hT : (newRecordWindow lead s6).trail.toNat = T := by rw [newRecordWindow_trail, if_pos hle']; rfl
  have hT63 : T ≤ 63 := by
    have hpos := sigCount_pos s6
    have hdef : T = 64 - lead.toNat - sigCount s6 := rfl
    omega
  have hc : s.dec.cur ^^^ deltaOf (newRecordWindow lead s6).trail m = c := by
    rw [deltaOf_of_le (by rw [hT]; exact hT63), hT]
  refine ⟨(congrArg windowWidth hW.symm).trans (windowWidth_new lead s6), ?_⟩
  rw [exec_newWindow_go he hf h1 (by rw [malformedNew_eq_false hle']; rfl), takeDelta_passRecord hc, hW]
  rfl

/-- A delta under a wrapped trailing count has no bit (41_decoder.md R200). -/
theorem deltaOf_wrapped {lead : BitVec 5} {s6 : BitVec 6} (h : 64 < lead.toNat + sigCount s6) (m : Word) :
    deltaOf (newRecordWindow lead s6).trail m = 0#64 := by
  have hlead := lead.isLt
  have hsig := sigCount_le s6
  apply deltaOf_of_gt
  rw [newRecordWindow_trail, if_neg (by omega)]
  omega

/-- Settles O39: the wrapped trailing count is above 63, so no delta under it has a bit. -/
theorem malformedRecordWraps : Obligations.MalformedRecordWraps := by
  intro s lead s6 m m' he hf h1 hne hwrap hmal
  have hlead := lead.isLt
  have hsig := sigCount_le s6
  have hT := newRecordWindow_trail lead s6
  rw [if_neg (by omega)] at hT
  have hkeep : ∀ x, s.dec.cur ^^^ deltaOf (newRecordWindow lead s6).trail x = s.dec.cur := fun x => by
    rw [deltaOf_wrapped hmal]; simp
  have hwidth := windowWidth_new lead s6
  refine ⟨(newRecordWindow lead s6).trail, by omega, by omega, ?_⟩
  intro t
  refine ⟨?_, hwidth, ?_⟩
  · rw [exec_newWindow_go he hf h1 (by simp [hwrap]), takeDelta_passRecord (hkeep m), if_neg hne]
    rfl
  · rw [exec_reuse_go (s := t) he hf h1 (hkeep m'), if_neg hne]
    change windowWidth t.dec.window = sigCount s6 at hwidth
    rw [hwidth]

/-- Settles O42: only the sentinel ends the stream, as a seed and as a candidate, and DEC_VALUE reads what
DEC_NEXT left. -/
theorem otherNaNsAreOrdinaryValues : Obligations.OtherNaNsAreOrdinaryValues := by
  refine ⟨fun s he hf h1 _ hne => ?_, fun s r post c ha he hf h1 hr hrest hc _ hne => ?_⟩
  · exact ⟨_, _, exec_decNext_valueSeed he hf h1 hne, rfl, exec_decValue_of_gotValue rfl, rfl⟩
  · rw [exec_decNext_of_rest ha he hf h1 hr hrest]
    rcases hc with ⟨m, rfl, hc⟩ | ⟨lead, s6, m, rfl, hc⟩
    · rw [runRecord, recordReuse_eq, takeDelta_passRecord hc.symm, if_neg hne]
      exact ⟨_, _, rfl, rfl, exec_decValue_of_gotValue rfl, rfl⟩
    · rw [runRecord, recordNew_taken (not_refused_of_readable hr), takeDelta_passRecord hc.symm, if_neg hne]
      exact ⟨_, _, rfl, rfl, exec_decValue_of_gotValue rfl, rfl⟩

/-! ### A NEW record up to `s6` -/

/-- The bits of a NEW record before its significant bits (30_encoding.md R105). -/
def newHeader (lead : BitVec 5) (s6 : BitVec 6) : List Bool :=
  [true, true] ++ bitsOf (lead.setWidth 64) 5 ++ bitsOf (s6.setWidth 64) 6

/-- The reader knows a NEW record's fields once `s6` is read, and reads on unless it refuses them (41_decoder.md
R195, R199). -/
theorem readRecord_newHeader {policy : MalformedPolicy} {W : Window} {bits post : List Bool} {lead : BitVec 5}
    {s6 : BitVec 6} (hb : bits = newHeader lead s6 ++ post) :
    ((malformedNew lead s6 && policy == .error) = true ∧
      readRecord (bitsGet bits) policy W 0 = .record (.newWindow lead s6 0#64)) ∨
    ((malformedNew lead s6 && policy == .error) = false ∧
      (readRecord (bitsGet bits) policy W 0 = .truncated 13 true ∨
        ∃ m, readRecord (bitsGet bits) policy W 0 = .record (.newWindow lead s6 m))) := by
  obtain ⟨hl, hlead⟩ := lead_roundTrip lead
  obtain ⟨hs, hsig⟩ := sig_roundTrip s6
  have h1 : bitsGet bits 0 1 = some 1#64 := bitsGet_bit (b := true) (pre := []) hb rfl
  have h2 : bitsGet bits (0 + 1) 1 = some 1#64 := bitsGet_bit (b := true) (pre := [true]) hb rfl
  have h3 : bitsGet bits (0 + 2) 5 = some (lead.setWidth 64) := bitsGet_field (pre := [true, true]) hb rfl hl
  have h4 : bitsGet bits (0 + 7) 6 = some (s6.setWidth 64) :=
    bitsGet_field (pre := [true, true] ++ bitsOf (lead.setWidth 64) 5) hb rfl hs
  cases hm : malformedNew lead s6 && policy == .error
  · refine .inr ⟨rfl, ?_⟩
    cases h5 : bitsGet bits (0 + 13) (sigCount s6) with
    | none => exact .inl (by simp [readRecord, h1, h2, h3, h4, hlead, hsig, hm, h5])
    | some m => exact .inr ⟨m, by simp [readRecord, h1, h2, h3, h4, hlead, hsig, hm, h5]⟩
  · exact .inl ⟨rfl, by simp [readRecord, h1, h2, h3, h4, hlead, hsig, hm]⟩

/-- Settles O38: the reader stops at `s6` with the record's fields, and the record is refused. -/
theorem malformedRecordIsError : Obligations.MalformedRecordIsError := by
  intro s lead s6 post ha he hf h1 hpolicy hmal hrest
  have hrefused : (malformedNew lead s6 && s.cfg.malformed == .error) = true := by
    rw [malformedNew_eq_true hmal, hpolicy]; rfl
  have hstream : s.dec.hasStream = true := Dec.hasStream_of_rest (by rw [hrest]; exact List.cons_ne_nil _ _)
  rw [exec_decNext, afterChecks_go he hf h1, nextRecord, fetchRecord_eq ha (.inr hstream)]
  rcases readRecord_newHeader (policy := s.cfg.malformed) (W := s.dec.window) hrest with ⟨-, hread⟩ | ⟨hok, -⟩
  · rw [hread]; exact congrArg Host.Outcome.next (recordNew_refused hrefused)
  · rw [hrefused] at hok; cases hok

end Sys2Proof.Machine
end

section
/-! PROOFS. Records cut short (41_decoder.md R198, 60_exceptions.md section 4). -/

namespace Sys2Proof.Machine

/-! ### What the reader finds in a cut record -/

/-- A record found by a reader is found by every reader that answers at least as much. -/
theorem readRecord_mono {get get' : Nat → Nat → Option Word} {policy : MalformedPolicy} {W : Window} {p : Nat}
    {r : Record} (hmono : ∀ {q n v}, get q n = some v → get' q n = some v)
    (h : readRecord get policy W p = .record r) : readRecord get' policy W p = .record r := by
  rw [readRecord_eq_record] at h ⊢
  cases h with
  | same h1 => exact .same (hmono h1)
  | reuse h1 hc1 h2 hm => exact .reuse (hmono h1) hc1 (hmono h2) (hmono hm)
  | refused h1 hc1 h2 hc2 hl hs hbad => exact .refused (hmono h1) hc1 (hmono h2) hc2 (hmono hl) (hmono hs) hbad
  | taken h1 hc1 h2 hc2 hl hs hok hm =>
    exact .taken (hmono h1) hc1 (hmono h2) hc2 (hmono hl) (hmono hs) hok (hmono hm)

/-- A read that fails inside a NEW record has read its two control bits (41_decoder.md R198). -/
theorem controlBits_of_truncated {get : Nat → Nat → Option Word} {policy : MalformedPolicy} {W : Window}
    {p n : Nat} (h : readRecord get policy W p = .truncated n true) :
    ∃ c1 c2, get p 1 = some c1 ∧ get (p + 1) 1 = some c2 ∧ c2 ≠ 0#64 := by
  unfold readRecord at h
  split at h
  · cases h
  rename_i c1 h1
  split at h
  · cases h
  split at h
  · cases h
  rename_i c2 h2
  split at h
  · split at h <;> cases h
  rename_i hc2
  exact ⟨c1, c2, h1, h2, hc2⟩

/-- The first bits of a record in which the reader finds a NEW record cut are of a NEW record, and hold its two
control bits. -/
theorem isNew_of_truncated {policy : MalformedPolicy} {W : Window} {r : Record} {k n : Nat}
    (h : readRecord (bitsGet ((encodeRecord W r).take k)) policy W 0 = .truncated n true) :
    (∃ lead s6 m, r = .newWindow lead s6 m) ∧ 2 ≤ k := by
  obtain ⟨-, c2, -, h2, hc2⟩ := controlBits_of_truncated h
  have hk : 0 + 1 + 1 ≤ ((encodeRecord W r).take k).length := (bitsGet_some h2).1
  rw [List.length_take] at hk
  refine ⟨?_, by omega⟩
  cases r with
  | same => simp only [encodeRecord, List.length_singleton] at hk; omega
  | reuse m =>
    have hzero : bitsGet (encodeRecord W (.reuse m)) (0 + 1) 1 = some 0#64 :=
      bitsGet_bit (b := false) (pre := [true]) rfl rfl
    rw [bitsGet_take h2] at hzero
    exact absurd (Option.some.inj hzero) hc2
  | newWindow lead s6 m => exact ⟨lead, s6, m, rfl⟩

/-- A cut of a record: of one the policy reads, anywhere; of a NEW record, before the end of `s6`. -/
def IsCut (policy : MalformedPolicy) (W : Window) (r : Record) (k : Nat) : Prop :=
  (r.readable policy W = true ∧ k < (encodeRecord W r).length) ∨
    ∃ lead s6 m, r = .newWindow lead s6 m ∧ k < 13

/-- Whatever record the reader finds in a cut record, it would have to read past the cut. -/
theorem lt_consumedBits_of_cut {policy : MalformedPolicy} {W : Window} {r r' : Record} {k : Nat}
    (hcut : IsCut policy W r k)
    (h : readRecord (bitsGet ((encodeRecord W r).take k)) policy W 0 = .record r') :
    k < consumedBits policy W (.record r') := by
  have hfull : readRecord (bitsGet (encodeRecord W r)) policy W 0 = .record r' :=
    readRecord_mono bitsGet_take h
  rcases hcut with ⟨hr, hk⟩ | ⟨lead, s6, m, rfl, hk⟩
  · have hwhole : readRecord (bitsGet (encodeRecord W r)) policy W 0 = .record r :=
      readRecord_encodeRecord (pre := []) (post := []) hr (by simp)
    rw [hwhole] at hfull
    cases hfull
    rw [consumedBits, if_neg (by simp [not_refused_of_readable hr]), ← Laws.encodeRecord_bits]
    exact hk
  · have hge : ∀ x, 13 ≤ consumedBits policy W (.record (.newWindow lead s6 x)) := by
      intro x
      simp only [consumedBits, recordLength]
      split <;> omega
    rcases readRecord_newHeader (policy := policy) (W := W) (bits := encodeRecord W (.newWindow lead s6 m)) rfl with
      ⟨-, hread⟩ | ⟨-, hread | ⟨x, hread⟩⟩ <;> rw [hread] at hfull <;> cases hfull
    · exact Nat.lt_of_lt_of_le hk (hge _)
    · exact Nat.lt_of_lt_of_le hk (hge _)

/-- The reader finds a cut record cut, inside a NEW record only where both control bits stand. -/
theorem readRecord_of_cut {policy : MalformedPolicy} {W : Window} {r : Record} {k : Nat}
    (hcut : IsCut policy W r k)
    (hle : consumedBits policy W (readRecord (bitsGet ((encodeRecord W r).take k)) policy W 0) ≤ k) :
    ∃ n inNew, readRecord (bitsGet ((encodeRecord W r).take k)) policy W 0 = .truncated n inNew ∧
      (inNew = true → (∃ lead s6 m, r = .newWindow lead s6 m) ∧ 2 ≤ k) := by
  cases h : readRecord (bitsGet ((encodeRecord W r).take k)) policy W 0 with
  | record r' => rw [h] at hle; exact absurd (lt_consumedBits_of_cut hcut h) (by omega)
  | truncated n inNew => exact ⟨n, inNew, rfl, by rintro rfl; exact isNew_of_truncated h⟩

/-! ### DEC at the end of its stream -/

theorem Dec.rest_length {d : Dec} (h : d.Attached) : d.rest.length = d.lim - d.pos := by
  rw [Dec.rest_eq h]
  obtain ⟨-, -, hlim, -⟩ := h
  rw [List.length_drop, streamOf_length, Memory.bytes_length, hlim]

/-- What stands at the cursor of an attached decoder is read from its unread bits, also where none is left and
no stream needs to be attached. -/
theorem fetchRecord_of_attached {s : State} (ha : s.dec.Attached) :
    fetchRecord s = readRecord (bitsGet s.dec.rest) s.cfg.malformed s.dec.window 0 := by
  by_cases hrest : s.dec.rest = []
  · have hcur : bitsAt s.dec s.dec.pos 1 = none := by
      have h := bitsAt_rest ha 0 1 (.inl (Nat.le_refl 1))
      rwa [bitsGet_none (by rw [hrest]; decide)] at h
    rw [fetchRecord, readRecord, hcur, readRecord, bitsGet_none (by rw [hrest]; decide)]
  · exact fetchRecord_eq ha (.inr (Dec.hasStream_of_rest hrest))

/-- DEC finds a cut record cut. -/
theorem fetchRecord_of_cut {s : State} {r : Record} {k : Nat} (ha : s.dec.Attached)
    (hcut : IsCut s.cfg.malformed s.dec.window r k) (hrest : s.dec.rest = (encodeRecord s.dec.window r).take k) :
    ∃ n inNew, fetchRecord s = .truncated n inNew ∧ s.dec.pos + n ≤ s.dec.lim ∧
      (inNew = true → (∃ lead s6 m, r = .newWindow lead s6 m) ∧ 2 ≤ k) := by
  have hlen := Dec.rest_length ha
  have ⟨_, _, _, hpos⟩ := ha
  have hle := fetchRecord_consumed hpos
  have hfetch := fetchRecord_of_attached ha
  rw [hrest] at hfetch hlen
  rw [List.length_take] at hlen
  rw [hfetch] at hle
  obtain ⟨n, inNew, hread, hnew⟩ := readRecord_of_cut hcut (by omega)
  rw [hread] at hle
  exact ⟨n, inNew, hfetch.trans hread, hle, hnew⟩

/-- Settles O40: DEC finds the record cut and keeps everything but the cursor, the error and, in a NEW record,
the window. -/
theorem cutRecordTruncates : Obligations.CutRecordTruncates := by
  intro s r k ha he hf h1 hcut hrest
  obtain ⟨n, inNew, hfetch, hle, hnew⟩ := fetchRecord_of_cut ha hcut hrest
  obtain ⟨W, idx, htrunc, hW, -⟩ := truncate_cases n inNew s
  refine ⟨truncate n inNew s, by rw [exec_decNext, afterChecks_go he hf h1, nextRecord, hfetch], ?_⟩
  rw [htrunc]
  refine ⟨rfl, rfl, rfl, h1, hf, rfl, rfl, rfl, Nat.le_add_right _ _, hle, rfl, rfl, rfl, rfl, rfl, fun hkeep => ?_⟩
  cases inNew with
  | false => exact (hW rfl).1
  | true =>
    obtain ⟨⟨lead, s6, m, rfl⟩, hk⟩ := hnew rfl
    rcases hkeep with hne | hk2
    · exact absurd rfl (hne lead s6 m)
    · omega

end Sys2Proof.Machine
end

section
/-! PROOFS. ENC_WRITE and the record it chooses (40_encoder.md sections 1 and 5). -/

namespace Sys2Proof.Machine

/-- Settles O18: the counts stop at the outermost one bits. -/
theorem zeroCountsLocateOuterBits : Obligations.ZeroCountsLocateOuterBits := fun x hx =>
  ⟨clz64_one hx, fun i hi => clz64_zero_above x i (by omega), ctz64_one hx, ctz64_zero_below x, clz64_add_ctz64 hx⟩

/-- XOR of the delta undoes it. -/
theorem xor_delta (w p : Word) : p ^^^ (w ^^^ p) = w := by
  rw [BitVec.xor_comm w, ← BitVec.xor_assoc, BitVec.xor_self, BitVec.zero_xor]

/-- Settles O20: the chosen record is well-formed and its delta is the one written. -/
theorem chosenRecordCarriesValue : Obligations.ChosenRecordCarriesValue := by
  rintro cfg w e ⟨-, -, -, -, hwin, -, -⟩
  have hwf := chosenRecord_wf (cfg := cfg) (w := w) hwin
  have hdelta := chosenRecord_delta (cfg := cfg) (w := w) hwin
  cases h : chosenRecord cfg w e <;> rw [h] at hwf hdelta
  case same => exact BitVec.xor_eq_zero_iff.1 (hdelta.symm.trans (deltaOf_zero _))
  case reuse m => exact ⟨hwf, (congrArg (e.prev ^^^ ·) hdelta).trans (xor_delta w e.prev)⟩
  case newWindow lead s6 m => exact ⟨hwf, (congrArg (e.prev ^^^ ·) hdelta).trans (xor_delta w e.prev)⟩

/-! ### Rejected writes -/

section
variable {e : Enc}

theorem rejectsWrite_of_finished {w : Word} {bypass : Bool} (h : e.finished = true) :
    rejectsWrite w bypass e = false := by
  simp [rejectsWrite, h]

theorem rejectsWrite_of_not_nan {w : Word} {bypass : Bool} (h : isNaN w = false) :
    rejectsWrite w bypass e = false := by
  simp [rejectsWrite, h]

theorem rejectsWrite_of_nan {w : Word} (hn : isNaN w = true) (hf : e.finished = false) :
    rejectsWrite w false e = true := by
  simp [rejectsWrite, hn, hf]

end

/-- A rejected write changes the error alone (40_encoder.md R141). -/
theorem exec_encWrite_rejected {s : State} {w : Word} (hn : isNaN w = true) (hf : s.enc.finished = false) :
    exec (.encWrite w) s = .next { s with enc := { s.enc with err := .unsupportedValue } } :=
  exec_encWrite_of_some (writePath_rejected (rejectsWrite_of_nan hn hf))

/-- Settles O11: before finalization the Write path rejects the value, after it the path takes it. -/
theorem naNWriteRejectedUntilFinished : Obligations.NaNWriteRejectedUntilFinished := by
  refine ⟨fun s w => exec_encWrite_rejected, fun s w hInv _ hf hroom => ?_⟩
  obtain ⟨hp, -, -, -, hwin, -⟩ := hInv
  obtain ⟨e, hwrite, ho, happ⟩ := writePath_room hp hwin (rejectsWrite_of_finished (bypass := false) hf) hroom
  obtain ⟨hprev, -, herr, -⟩ := afterWrite_fields s.cfg w s.enc
  refine ⟨e, exec_encWrite_of_some hwrite, ?_, ?_, happ⟩ <;> rw [ho]
  · exact herr
  · exact hprev

/-! ### The Write path does not look at the error -/

section
variable (k : ErrKind)

theorem putBit_raiseEnc (cap : Option Nat) (b : Bool) (e : Enc) :
    putBit cap b (raiseEnc k e) = (putBit cap b e).map (raiseEnc k) := by
  unfold putBit
  dsimp only
  by_cases h7 : e.pcnt.toNat + 1 = 8
  · have h7' : (raiseEnc k e).pcnt.toNat + 1 = 8 := h7
    rw [if_pos h7, if_pos h7']
    by_cases hc : cap = some e.out.size
    · have hc' : cap = some (raiseEnc k e).out.size := hc
      rw [if_pos hc, if_pos hc']; rfl
    · have hc' : ¬ cap = some (raiseEnc k e).out.size := hc
      rw [if_neg hc, if_neg hc']; rfl
  · have h7' : ¬ (raiseEnc k e).pcnt.toNat + 1 = 8 := h7
    rw [if_neg h7, if_neg h7']; rfl

/-- An operation that does not look at the error, after one that does not. -/
theorem bind_raiseEnc {r : Option Enc} {f : Enc → Option Enc}
    (h : ∀ e, f (raiseEnc k e) = (f e).map (raiseEnc k)) :
    (r.map (raiseEnc k)).bind f = (r.bind f).map (raiseEnc k) := by
  cases r with
  | none => rfl
  | some e => exact h e

theorem putBits_raiseEnc (cap : Option Nat) (v : Word) (n : Nat) (e : Enc) :
    putBits cap v n (raiseEnc k e) = (putBits cap v n e).map (raiseEnc k) := by
  induction n generalizing e with
  | zero => rfl
  | succ n ih => rw [putBits_succ, putBits_succ, putBit_raiseEnc, bind_raiseEnc k ih]

theorem emitReuse_raiseEnc (cap : Option Nat) (d : Word) (e : Enc) :
    emitReuse cap d (raiseEnc k e) = (emitReuse cap d e).map (raiseEnc k) := by
  rw [emitReuse, putBit_raiseEnc]
  exact bind_raiseEnc k fun e => putBits_raiseEnc k cap _ _ e

theorem emitNew_raiseEnc (cap : Option Nat) (d : Word) (L T : Nat) (e : Enc) :
    emitNew cap d L T (raiseEnc k e) = (emitNew cap d L T e).map (raiseEnc k) := by
  change (putBit cap true (raiseEnc k
    { e with winValid := true, lead := BitVec.ofNat 5 L, trail := BitVec.ofNat 6 T })).bind _ = _
  rw [putBit_raiseEnc]
  refine bind_raiseEnc k fun e1 => ?_
  rw [putBits_raiseEnc]
  refine bind_raiseEnc k fun e2 => ?_
  rw [putBits_raiseEnc]
  exact bind_raiseEnc k fun e3 => putBits_raiseEnc k cap _ _ e3

theorem emitRecord_raiseEnc (cfg : Config) (d : Word) (e : Enc) :
    emitRecord cfg d (raiseEnc k e) = (emitRecord cfg d e).map (raiseEnc k) := by
  unfold emitRecord
  split
  · exact putBit_raiseEnc k _ _ _
  rw [putBit_raiseEnc]
  refine bind_raiseEnc k fun e1 => ?_
  have hre : ∀ L T, reusesWindow L T (raiseEnc k e1) = reusesWindow L T e1 := fun _ _ => rfl
  dsimp only
  rw [hre]
  split
  · exact emitReuse_raiseEnc k _ _ _
  · exact emitNew_raiseEnc k _ _ _ _ _

theorem writePath_raiseEnc {cfg : Config} {w : Word} {bypass : Bool} {e : Enc}
    (ha : rejectsWrite w bypass e = false) :
    writePath cfg w bypass (raiseEnc k e) = (writePath cfg w bypass e).map (raiseEnc k) := by
  have ha' : rejectsWrite w bypass (raiseEnc k e) = false := ha
  rw [writePath, ha', writePath, ha]
  simp only [Bool.false_eq_true, if_false]
  by_cases hf : e.first = true
  · have hf' : (raiseEnc k e).first = true := hf
    rw [if_pos hf, if_pos hf']
    exact putBits_raiseEnc k _ _ _ { e with prev := w, first := false }
  · have hf' : ¬ (raiseEnc k e).first = true := hf
    rw [if_neg hf, if_neg hf', raiseEnc_prev, emitRecord_raiseEnc, Option.map_map, Option.map_map]; rfl

end

/-- Settles O12: the Write path commutes with a change of the error. -/
theorem rejectionDoesNotStopWrites : Obligations.RejectionDoesNotStopWrites := by
  intro s t w k hn h
  obtain ⟨e, hwrite, rfl⟩ := exec_encWrite_next h
  have hraised := writePath_raiseEnc k (cfg := s.cfg) (e := s.enc)
    (rejectsWrite_of_not_nan (bypass := false) hn)
  rw [hwrite] at hraised
  exact exec_encWrite_of_some (s := { s with enc := raiseEnc k s.enc }) hraised

/-! ### Accepted writes -/

/-- Settles O13: the first accepted write is PutBits of the value's 64 bits. -/
theorem firstWriteIsSeed : Obligations.FirstWriteIsSeed := by
  intro s w hp ha hf hroom
  obtain ⟨e, hput, ho, happ⟩ :=
    putBits_room s.cfg.outCap w 64 (e := { s.enc with prev := w, first := false }) hp hroom
  have hwrite : writePath s.cfg w false s.enc = some e := by
    rw [writePath, if_neg (by simp [ha]), if_pos hf, hput]
  exact ⟨e, exec_encWrite_of_some hwrite, ho, happ.of_packer rfl rfl rfl⟩

/-- An encoder command faults where its operation does (60_exceptions.md R234). -/
theorem encOutcome_eq_fault {s : State} {r : Option Enc} :
    encOutcome s r = .fault .capacityExceeded ↔ r = none := by
  cases r <;> simp [encOutcome]

/-- Settles O17: an accepted write emits its bits or, without room for them, faults. -/
theorem writeFaultsWithoutRoom : Obligations.WriteFaultsWithoutRoom := by
  rintro s w ⟨hp, -, hfit, -, hwin, -⟩ ha
  change encOutcome s _ = _ ↔ _
  rw [encOutcome_eq_fault]
  refine ⟨fun h hroom => ?_, writePath_full hp hwin ha hfit⟩
  obtain ⟨e, hwrite, -⟩ := writePath_room hp hwin ha hroom
  rw [h] at hwrite; cases hwrite

end Sys2Proof.Machine
end

section
/-! PROOFS. ENC_FLUSH and ENC_BYTES (40_encoder.md sections 2 and 3). -/

namespace Sys2Proof.Machine

/-! ### ENC_FLUSH -/

/-- The window after a write: a seed, SAME and REUSE keep it (40_encoder.md R143, R144, R147). -/
theorem afterWrite_window_kept {cfg : Config} {w : Word} {e : Enc}
    (h : e.first = true ∨ w ^^^ e.prev = 0#64 ∨
      reusesWindow (clampLead cfg.leadClamp (clz64 (w ^^^ e.prev))) (ctz64 (w ^^^ e.prev)) e = true) :
    (afterWrite cfg w e).winValid = e.winValid ∧ (afterWrite cfg w e).lead = e.lead ∧
      (afterWrite cfg w e).trail = e.trail := by
  unfold afterWrite
  split
  · exact ⟨rfl, rfl, rfl⟩
  rename_i hf
  by_cases hd : w ^^^ e.prev = 0#64
  · simp [chosenRecord, hd, afterRecord]
  · have hr := (h.resolve_left hf).resolve_left hd
    rw [chosenRecord_reuse hd hr]
    exact ⟨rfl, rfl, rfl⟩

/-- The window after a write that sets it (40_encoder.md R146). -/
theorem afterWrite_window_set {cfg : Config} {w : Word} {e : Enc} (hf : e.first = false) (hd : w ^^^ e.prev ≠ 0#64)
    (hr : reusesWindow (clampLead cfg.leadClamp (clz64 (w ^^^ e.prev))) (ctz64 (w ^^^ e.prev)) e = false) :
    (afterWrite cfg w e).winValid = true ∧
      (afterWrite cfg w e).lead.toNat = clampLead cfg.leadClamp (clz64 (w ^^^ e.prev)) ∧
      (afterWrite cfg w e).trail.toNat = ctz64 (w ^^^ e.prev) := by
  obtain ⟨hL, hsum⟩ := chosen_counts cfg.leadClamp hd
  rw [afterWrite, if_neg (by simp [hf]), chosenRecord, if_neg hd, if_neg (by simp [hr])]
  refine ⟨rfl, ofNat_lead_toNat hL, ?_⟩
  simp only [afterRecord, BitVec.toNat_setWidth, chosen_trail hL hsum]
  omega

/-- Without room, finalization faults (60_exceptions.md R234); the other case is `finalize_room`. -/
theorem finalize_full {cfg : Config} {e : Enc} (h : e.Packed)
    (hw : e.winValid = true → e.lead.toNat + e.trail.toNat ≤ 63) (hf : fitsCap cfg.outCap e.out.size = true)
    (hr : ¬ e.HasRoom cfg.outCap (flushBits cfg e).length) : finalize cfg e = none := by
  obtain ⟨hout, -, hpcnt⟩ := afterWrite_out cfg cfg.sentinel e
  exact (finalize_emit h hw).full (by simp only [hout]; exact hf)
    (by rw [Enc.HasRoom]; simp only [hout, hpcnt]; exact hr)

/-- Settles O24: finalization is the sentinel's write, which is never rejected, and the padding. -/
theorem flushFinalizesStream : Obligations.FlushFinalizesStream := by
  rintro s ⟨hp, -, hfit, -, hwin, -⟩ hopen d L T
  refine ⟨fun hroom => ?_, fun hroom => ?_⟩
  · obtain ⟨e, hfin, ho, happ⟩ := finalize_room hp hwin hroom
    obtain ⟨hprev, hfirst, herr, -⟩ := afterWrite_fields s.cfg s.cfg.sentinel s.enc
    refine ⟨e, exec_encFlush_open hopen hfin, ?_, happ,
      BitVec.eq_of_toNat_eq (happ.count.trans (flushBits_aligned _ _)), fun hk => ?_, fun hf hd hr => ?_⟩
    · rw [ho]; simp only [hprev, hfirst, herr]
    · rw [ho]; exact afterWrite_window_kept hk
    · rw [ho]; exact afterWrite_window_set hf hd hr
  · change execEncFlush s = _
    rw [execEncFlush, if_neg (by simp [hopen]), encOutcome_eq_fault]
    exact finalize_full hp hwin hfit hroom

/-! ### ENC_BYTES -/

/-- A byte's low bits moved up to its top: the bits, then zeros (40_encoder.md R155). -/
theorem byteBits_shiftLeft (b : Byte) {n : Nat} (h : n ≤ 8) :
    byteBits (b <<< (8 - n)) = bitsOf (b.setWidth 64) n ++ List.replicate (8 - n) false := by
  apply List.ext_getElem?
  intro i
  by_cases hi : i < 8
  · rw [byteBits_getElem? _ _ hi, BitVec.getLsbD_shiftLeft]
    by_cases hn : i < n
    · rw [List.getElem?_append_left (by simpa using hn), bitsOf_getElem?, if_pos hn, BitVec.getLsbD_setWidth]
      have h1 : 7 - i < 8 := by omega
      have h2 : ¬ 7 - i < 8 - n := by omega
      have h3 : 7 - i - (8 - n) = n - 1 - i := by omega
      have h4 : n - 1 - i < 64 := by omega
      simp [h1, h2, h3, h4]
    · rw [List.getElem?_append_right (by simpa using hn), bitsOf_length, List.getElem?_replicate,
        if_pos (by omega)]
      have h1 : 7 - i < 8 - n := by omega
      simp [h1]
  · rw [List.getElem?_eq_none (by simpa using hi), List.getElem?_eq_none (by simp; omega)]

theorem tailBytes_of_aligned {policy : PreflushTail} {e : Enc} (h : e.pcnt = 0#3) : tailBytes policy e = [] :=
  if_neg (by simp [h])

theorem tailBytes_completeOnly (e : Enc) : tailBytes .completeOnly e = [] :=
  if_neg (by simp)

/-- The stream with its tail byte holds the pending bits, filled with zeros (40_encoder.md R155). -/
theorem streamOf_padded {e : Enc} (h : e.Packed) : streamOf (e.out.bytes ++ tailBytes .padded e) =
    e.bits ++ List.replicate ((8 - e.pcnt.toNat) % 8) false := by
  obtain ⟨-, hsize, -⟩ := h
  by_cases h0 : e.pcnt = 0#3
  · simp [tailBytes_of_aligned h0, Enc.bits, h0]
  · have hne : e.pcnt.toNat ≠ 0 := fun hz => h0 (BitVec.eq_of_toNat_eq hz)
    have hlt := e.pcnt.isLt
    have htail : tailBytes .padded e = [e.pend <<< (8 - e.pcnt.toNat)] := if_pos ⟨h0, rfl⟩
    rw [htail, streamOf_append (by simpa using hsize), byteBits_shiftLeft _ (by omega),
      Nat.mod_eq_of_lt (by omega), Enc.bits, List.append_assoc]

/-- Settles O25: the tail is empty on a byte boundary and under `complete_only`, and otherwise the pending bits in
the top of a byte. -/
theorem bytesReturnsStream : Obligations.BytesReturnsStream := by
  intro s hp
  have ⟨hwf, _, _⟩ := hp
  refine ⟨_, exec_encBytes s, fun a ha => ?_, fun h0 => ?_, fun hc => ?_, fun hpad => ?_⟩
  · rw [List.getElem?_append_left (by simpa using ha), Memory.read_eq hwf]
  · rw [tailBytes_of_aligned h0, List.append_nil]
  · rw [hc, tailBytes_completeOnly, List.append_nil]
  · rw [hpad, streamOf_padded hp]

/-! ### The error a session reports -/

/-- An encoder in the middle of a session, with or without an error. -/
structure Enc.Open (e : Enc) : Prop where
  packed : e.Packed
  legal : e.winValid = true → e.lead.toNat + e.trail.toNat ≤ 63
  unfinished : e.finished = false

/-- The error after a write of an open session (40_encoder.md R141). -/
def errAfterWrite (w : Word) (k : ErrKind) : ErrKind := if isNaN w then .unsupportedValue else k

/-- A write of an open session without a bound on OUT completes, rejected or accepted. -/
theorem Enc.Open.encWrite {s : State} (h : s.enc.Open) (hcap : s.cfg.outCap = none) (w : Word) :
    ∃ e, exec (.encWrite w) s = .next { s with enc := e } ∧ e.Open ∧ e.err = errAfterWrite w s.enc.err := by
  cases hn : isNaN w
  · obtain ⟨e, hwrite, ho, happ⟩ := writePath_room (cfg := s.cfg) (bypass := false) h.packed h.legal
      (rejectsWrite_of_not_nan hn) (.of_unbounded hcap _ _)
    obtain ⟨-, -, herr, hfin⟩ := afterWrite_fields s.cfg w s.enc
    refine ⟨e, exec_encWrite_of_some hwrite, ⟨happ.packed, ?_, ?_⟩, ?_⟩ <;> rw [ho]
    · exact afterWrite_window_legal h.legal
    · exact hfin.trans h.unfinished
    · rw [herr, errAfterWrite, hn]; rfl
  · exact ⟨_, exec_encWrite_rejected hn h.unfinished, ⟨h.packed, h.legal, h.unfinished⟩, by
      rw [errAfterWrite, hn]; rfl⟩

/-- The error after any writes of an open session. -/
theorem runAll_encWrite_err (ws : List Word) : ∀ {s : State}, s.enc.Open → s.cfg.outCap = none →
    ∃ e, (∀ is, runAll (ws.map .encWrite ++ is) s = runAll is { s with enc := e }) ∧
      e.err = if ws.any isNaN then .unsupportedValue else s.enc.err := by
  induction ws with
  | nil => intro s _ _; exact ⟨s.enc, fun _ => rfl, rfl⟩
  | cons w ws ih =>
    intro s h hcap
    obtain ⟨e1, hwrite, h1, herr1⟩ := h.encWrite hcap w
    obtain ⟨e, hrun, herr⟩ := ih (s := { s with enc := e1 }) h1 hcap
    refine ⟨e, fun is => ?_, ?_⟩
    · simp only [List.map_cons, List.cons_append, runAll, hwrite]; exact hrun is
    · rw [herr, List.any_cons]
      dsimp only
      rw [herr1, errAfterWrite]
      cases isNaN w <;> simp

/-- Settles O27: ENC_RESET opens a session without error, each rejected write leaves the error and no other write
touches it. -/
theorem reportedErrorTellsOfRejection : Obligations.ReportedErrorTellsOfRejection := by
  intro s ws hcap
  have hw := Enc.writing_powerOn s.cfg
  obtain ⟨e, hrun, herr⟩ := runAll_encWrite_err ws (s := { s with enc := Enc.powerOn s.cfg })
    ⟨hw.packed, hw.legal, hw.unfinished⟩ hcap
  refine ⟨_, hrun [.encBytes], ?_⟩
  change e.err.code = _
  rw [herr]
  split <;> rfl

end Sys2Proof.Machine
end

section
/-! PROOFS. The two units beside each other: what a command of one leaves unchanged, and that neither sees the
other (20_memory.md section 5). -/

namespace Sys2Proof.Machine

/-! ### The two sides of the state -/

/-- `s` with the encoder's side of `a`: the unit and its results. -/
def withEncSide (a s : State) : State :=
  { s with enc := a.enc, res := { s.res with obuf := a.res.obuf, oerr := a.res.oerr } }

/-- `s` with the decoder's side of `b`: the unit, its results and the model's fields of its session. -/
def withDecSide (b s : State) : State :=
  { s with dec := b.dec, res := { b.res with obuf := s.res.obuf, oerr := s.res.oerr }, gotValue := b.gotValue,
           inputInUse := b.inputInUse, freeIdx := b.freeIdx }

/-- The sides are apart. -/
theorem withEncSide_withDecSide (a b s : State) :
    withEncSide a (withDecSide b s) = withDecSide b (withEncSide a s) := rfl

/-! ### The encoder's commands -/

section
variable {i : Instr} {s t : State}

/-- A command of the encoder's port writes the encoder's side alone. -/
theorem exec_onEncPort_frame (hi : onEncPort i = true) (h : exec i s = .next t) : t = withEncSide t s := by
  rcases onEncPort_cases hi with ⟨w, rfl⟩ | rfl | rfl | rfl
  · obtain ⟨e, -, rfl⟩ := exec_encWrite_next h; rfl
  · rcases exec_encFlush_next h with ⟨-, rfl⟩ | ⟨-, e, -, rfl⟩ <;> rfl
  · cases h; rfl
  · cases h; rfl

/-- A command of the encoder's port does the same whatever stands on the decoder's side. -/
theorem exec_withDecSide (b : State) (hi : onEncPort i = true) (h : exec i s = .next t) :
    exec i (withDecSide b s) = .next (withDecSide b t) := by
  rcases onEncPort_cases hi with ⟨w, rfl⟩ | rfl | rfl | rfl
  · obtain ⟨e, hw, rfl⟩ := exec_encWrite_next h
    exact exec_encWrite_of_some (s := withDecSide b s) hw
  · rcases exec_encFlush_next h with ⟨hf, rfl⟩ | ⟨hf, e, hfin, rfl⟩
    · exact exec_encFlush_finished (s := withDecSide b t) hf
    · exact exec_encFlush_open (s := withDecSide b s) hf hfin
  · cases h; rfl
  · cases h; rfl

end

/-! ### What DEC_NEXT and the records write -/

/-- `t` differs from `s` in what reading a record can write alone: the decoder's registers but its buffer and the
attached stream, the result of DEC_NEXT and the model's fields of the session. -/
def OnlyNext (s t : State) : Prop :=
  t = { s with
    dec := { t.dec with inp := s.dec.inp, hasStream := s.dec.hasStream, lim := s.dec.lim }
    res := { s.res with avail := t.res.avail }
    gotValue := t.gotValue, inputInUse := t.inputInUse, freeIdx := t.freeIdx }

theorem runRecord_onlyNext (r : Record) (s : State) : OnlyNext s (runRecord r s) := by
  have hdelta : ∀ (m : Word) (n : Nat) (W : Window), OnlyNext s (takeDelta m (passRecord n W s)) := by
    intro m n W
    rcases takeDelta_cases m (passRecord n W s) with ⟨-, h⟩ | ⟨-, h⟩ <;> rw [h] <;> rfl
  cases r with
  | same => rfl
  | reuse m => exact hdelta m (2 + windowWidth s.dec.window) s.dec.window
  | newWindow lead s6 m =>
    cases hm : malformedNew lead s6 && s.cfg.malformed == .error
    · rw [runRecord, recordNew_taken hm]; exact hdelta m _ _
    · rw [runRecord, recordNew_refused hm]; rfl

theorem nextRecord_onlyNext (s : State) : OnlyNext s (nextRecord s) := by
  unfold nextRecord
  cases fetchRecord s with
  | record r => exact runRecord_onlyNext r s
  | truncated n inNew => cases inNew <;> rfl

theorem afterChecks_onlyNext {s : State} {k : State → State} (hk : OnlyNext s (k s)) :
    OnlyNext s (afterChecks s k) := by
  rcases afterChecks_cases s k with ⟨-, h⟩ | ⟨-, -, -, h⟩ | ⟨-, -, -, h⟩ <;> rw [h]
  · rfl
  · rcases seedStep_cases s with ⟨-, hs⟩ | ⟨-, hs⟩ <;> rw [hs] <;> rfl
  · exact hk

theorem OnlyNext.decSide {s t : State} (h : OnlyNext s t) : t = withDecSide t s := by
  rw [OnlyNext] at h
  rw [h]; rfl

theorem OnlyNext.inp {s t : State} (h : OnlyNext s t) : t.dec.inp = s.dec.inp := by
  rw [h]

/-! ### The other instructions of the decoder -/

section
variable {i : Instr} {s t : State}

/-- The instructions of the decoder: its port's commands and the wire records. -/
theorem not_onEncPort_cases (hi : onEncPort i = false) : (∃ ibuf, i = .decSetbytes ibuf) ∨ i = .decNext ∨
    i = .decValue ∨ i = .decError ∨ (∃ b, i = .header b) ∨ (∃ v, i = .seed v) ∨ ∃ r : Record, i = r.toInstr := by
  cases i with
  | encWrite | encFlush | encBytes | encReset => cases hi
  | decSetbytes ibuf => exact .inl ⟨ibuf, rfl⟩
  | decNext | decValue | decError | header | seed => simp
  | same => exact .inr (.inr (.inr (.inr (.inr (.inr ⟨.same, rfl⟩)))))
  | reuse m => exact .inr (.inr (.inr (.inr (.inr (.inr ⟨.reuse m, rfl⟩)))))
  | newWindow lead s6 m => exact .inr (.inr (.inr (.inr (.inr (.inr ⟨.newWindow lead s6 m, rfl⟩)))))

theorem setBytes_decSide (ibuf : List Byte) (s : State) : setBytes ibuf s = withDecSide (setBytes ibuf s) s := by
  rcases setBytes_cases ibuf s with ⟨-, h⟩ | ⟨-, -, h⟩ | ⟨-, h⟩ <;> rw [h] <;> rfl

/-- An instruction of the decoder writes the decoder's side alone. -/
theorem exec_not_onEncPort_frame (hi : onEncPort i = false) (h : exec i s = .next t) : t = withDecSide t s := by
  rcases not_onEncPort_cases hi with ⟨ibuf, rfl⟩ | rfl | rfl | rfl | ⟨b, rfl⟩ | ⟨v, rfl⟩ | ⟨r, rfl⟩
  · obtain ⟨-, rfl⟩ := exec_decSetbytes_next h
    exact setBytes_decSide ibuf s
  · rw [exec_decNext] at h
    cases h; exact (afterChecks_onlyNext (nextRecord_onlyNext s)).decSide
  · rcases exec_decValue_cases s with ⟨-, hv⟩ | ⟨-, hv⟩ <;> rw [hv] at h <;> cases h <;> rfl
  · cases h; rfl
  · cases h; rfl
  · cases h; rfl
  · rw [exec_toInstr] at h
    cases h; exact (afterChecks_onlyNext (runRecord_onlyNext r s)).decSide

/-- Only DEC_SETBYTES writes IN (20_memory.md R60). -/
theorem exec_inp (hi : ∀ ibuf, i ≠ .decSetbytes ibuf) (h : exec i s = .next t) : t.dec.inp = s.dec.inp := by
  cases hport : onEncPort i
  · rcases not_onEncPort_cases hport with ⟨ibuf, rfl⟩ | rfl | rfl | rfl | ⟨b, rfl⟩ | ⟨v, rfl⟩ | ⟨r, rfl⟩
    · exact absurd rfl (hi ibuf)
    · rw [exec_decNext] at h
      cases h; exact afterChecks_inp s
    · rw [(exec_decValue_units h).2]
    · cases h; rfl
    · cases h; rfl
    · cases h; rfl
    · rw [exec_toInstr] at h
      cases h; exact (afterChecks_onlyNext (runRecord_onlyNext r s)).inp
  · rw [exec_onEncPort_dec hport h]

end

/-- Settles O49: DEC_SETBYTES stores the input in canonical form, and every other instruction keeps IN. -/
theorem inIsWrittenBySetbytesAlone : Obligations.InIsWrittenBySetbytesAlone := by
  refine ⟨fun i s t => exec_inp, fun ibuf s t h => ?_⟩
  obtain ⟨-, rfl⟩ := exec_decSetbytes_next h
  rw [setBytes_inp]
  exact ⟨Memory.bytes_ofBytes ibuf, Memory.wf_ofBytes ibuf⟩

/-- Settles O54: either unit's instructions write their own side alone. -/
theorem commandsChangeTheirUnitAlone : Obligations.CommandsChangeTheirUnitAlone := by
  intro i s t h
  cases hi : onEncPort i
  · rw [exec_not_onEncPort_frame hi h]
    exact ⟨rfl, rfl, nofun, fun _ => ⟨rfl, rfl, rfl⟩⟩
  · rw [exec_onEncPort_frame hi h]
    exact ⟨rfl, rfl, fun _ => ⟨rfl, rfl, rfl, rfl, rfl⟩, nofun⟩

/-! ### The decoder does not see the encoder's side -/

section
variable (a : State)

theorem takeDelta_withEncSide (m : Word) (s : State) :
    takeDelta m (withEncSide a s) = withEncSide a (takeDelta m s) := by
  rcases takeDelta_cases m s with ⟨hc, h⟩ | ⟨hc, h⟩ <;> rw [h]
  · exact takeDelta_of_end (s := withEncSide a s) hc
  · exact takeDelta_of_value (s := withEncSide a s) hc

theorem runRecord_withEncSide (r : Record) (s : State) :
    runRecord r (withEncSide a s) = withEncSide a (runRecord r s) := by
  cases r with
  | same => rfl
  | reuse m => exact takeDelta_withEncSide a m (passRecord (2 + windowWidth s.dec.window) s.dec.window s)
  | newWindow lead s6 m =>
    simp only [runRecord]
    cases hm : malformedNew lead s6 && s.cfg.malformed == .error
    · rw [recordNew_taken hm, recordNew_taken (s := withEncSide a s) hm]
      exact takeDelta_withEncSide a m (passRecord (13 + sigCount s6) (newRecordWindow lead s6) s)
    · rw [recordNew_refused hm, recordNew_refused (s := withEncSide a s) hm]; rfl

theorem nextRecord_withEncSide (s : State) : nextRecord (withEncSide a s) = withEncSide a (nextRecord s) := by
  have hfetch : fetchRecord (withEncSide a s) = fetchRecord s := rfl
  unfold nextRecord
  rw [hfetch]
  cases fetchRecord s with
  | record r => exact runRecord_withEncSide a r s
  | truncated n inNew => cases inNew <;> rfl

theorem afterChecks_withEncSide {s : State} {k : State → State}
    (hk : k (withEncSide a s) = withEncSide a (k s)) :
    afterChecks (withEncSide a s) k = withEncSide a (afterChecks s k) := by
  rcases afterChecks_cases s k with ⟨ht, h⟩ | ⟨he, hf, h1, h⟩ | ⟨he, hf, h1, h⟩ <;> rw [h]
  · exact afterChecks_terminal (s := withEncSide a s) ht
  · rw [afterChecks_first (s := withEncSide a s) he hf h1]
    rcases seedStep_cases s with ⟨hc, hs⟩ | ⟨hc, hs⟩ <;> rw [hs]
    · exact seedStep_of_end (s := withEncSide a s) hc
    · exact seedStep_of_value (s := withEncSide a s) hc
  · rw [afterChecks_go (s := withEncSide a s) he hf h1, hk]

theorem setBytes_withEncSide (ibuf : List Byte) (s : State) :
    setBytes ibuf (withEncSide a s) = withEncSide a (setBytes ibuf s) := by
  rcases setBytes_cases ibuf s with ⟨rfl, h⟩ | ⟨h1, h8, h⟩ | ⟨h9, h⟩ <;> rw [h]
  · rfl
  · exact setBytes_short (withEncSide a s) h1 h8
  · exact setBytes_long (withEncSide a s) h9

/-- An instruction of the decoder does the same whatever stands on the encoder's side. -/
theorem exec_withEncSide {i : Instr} {s t : State} (hi : onEncPort i = false) (h : exec i s = .next t) :
    exec i (withEncSide a s) = .next (withEncSide a t) := by
  rcases not_onEncPort_cases hi with ⟨ibuf, rfl⟩ | rfl | rfl | rfl | ⟨b, rfl⟩ | ⟨v, rfl⟩ | ⟨r, rfl⟩
  · obtain ⟨hfit, rfl⟩ := exec_decSetbytes_next h
    rw [exec_decSetbytes_of_fits (s := withEncSide a s) hfit, setBytes_withEncSide]
  · rw [exec_decNext] at h ⊢
    cases h; rw [afterChecks_withEncSide a (nextRecord_withEncSide a s)]
  · rcases exec_decValue_cases s with ⟨hg, hv⟩ | ⟨hg, hv⟩ <;> rw [hv] at h <;> cases h
    · exact exec_decValue_of_gotValue (s := withEncSide a s) hg
    · exact if_neg (by simpa [withEncSide] using hg)
  · cases h; rfl
  · cases h; rfl
  · cases h; rfl
  · rw [exec_toInstr] at h ⊢
    cases h; rw [afterChecks_withEncSide a (runRecord_withEncSide a r s)]

end

/-- Settles O55: each instruction writes its own side and does the same whatever stands on the other. -/
theorem unitsDoNotObserveEachOther : Obligations.UnitsDoNotObserveEachOther := by
  intro i j s s1 s2 hi hj h1 h2
  have hs1 : s1 = withEncSide s1 s := exec_onEncPort_frame hi h1
  have hs2 : s2 = withDecSide s2 s := exec_not_onEncPort_frame hj h2
  have hj1 := exec_withEncSide s1 hj h2
  have hi2 := exec_withDecSide s2 hi h1
  rw [← hs1] at hj1
  rw [← hs2] at hi2
  refine ⟨_, hj1, hi2.trans (congrArg Host.Outcome.next ?_)⟩
  calc withDecSide s2 s1 = withDecSide s2 (withEncSide s1 s) := by rw [← hs1]
    _ = withEncSide s1 (withDecSide s2 s) := (withEncSide_withDecSide s1 s2 s).symm
    _ = withEncSide s1 s2 := by rw [← hs2]

end Sys2Proof.Machine
end

section
/-! PROOFS. The address space OUT: its layout, that it only grows, and its one fault (20_memory.md sections 1 and 2,
60_exceptions.md section 1). -/

namespace Sys2Proof.Machine

/-- Settles O47: completed bytes come before the pending bits, and the unread bits are those from the cursor on. -/
theorem streamBitsStandMsbFirst : Obligations.StreamBitsStandMsbFirst := by
  refine ⟨fun e p hp hlt => ?_, fun d p ha _ => ?_⟩
  · obtain ⟨hwf, -, -⟩ := hp
    rw [Enc.bits, List.getElem?_append_left (by simpa using hlt), ← streamBit_eq hwf, streamBit]
  · have hrest := Dec.rest_eq ha
    obtain ⟨hwf, -, -, -⟩ := ha
    rw [hrest, List.getElem?_drop, ← streamBit_eq hwf, streamBit]

/-! ### What holds of every packer operation -/

/-- A relation between an encoder and the outcome of an operation on it that PutBit meets, that is kept in sequence,
and that depends on the packer's registers alone. -/
structure PackerRule (cap : Option Nat) (R : Enc → Option Enc → Prop) : Prop where
  pure : ∀ e, R e (some e)
  bit : ∀ b e, R e (putBit cap b e)
  bind : ∀ {e r f}, R e r → (∀ e', R e' (f e')) → R e (r.bind f)
  regs : ∀ {e e0 r}, e0.out = e.out → e0.pend = e.pend → e0.pcnt = e.pcnt → R e0 r → R e r

namespace PackerRule

variable {cap : Option Nat} {R : Enc → Option Enc → Prop} (h : PackerRule cap R)
include h

theorem map {e : Enc} {r : Option Enc} {f : Enc → Enc} (hr : R e r)
    (hf : ∀ e, (f e).out = e.out ∧ (f e).pend = e.pend ∧ (f e).pcnt = e.pcnt) : R e (r.map f) := by
  rw [Option.map_eq_bind]
  refine h.bind hr fun e' => ?_
  obtain ⟨hout, hpend, hpcnt⟩ := hf e'
  exact h.regs hout hpend hpcnt (h.pure (f e'))

theorem putBits (v : Word) (n : Nat) (e : Enc) : R e (putBits cap v n e) := by
  induction n generalizing e with
  | zero => exact h.pure e
  | succ n ih => rw [putBits_succ]; exact h.bind (h.bit _ e) ih

theorem padLoop (n : Nat) (e : Enc) : R e (padLoop cap n e) := by
  induction n generalizing e with
  | zero => exact h.pure e
  | succ n ih =>
    rw [padLoop_succ]
    split
    · exact h.pure e
    · exact h.bind (h.bit _ e) ih

theorem emitReuse (d : Word) (e : Enc) : R e (emitReuse cap d e) :=
  h.bind (h.bit false e) fun e1 => h.putBits _ _ e1

theorem emitNew (d : Word) (L T : Nat) (e : Enc) : R e (emitNew cap d L T e) :=
  h.regs (e0 := { e with winValid := true, lead := BitVec.ofNat 5 L, trail := BitVec.ofNat 6 T }) rfl rfl rfl <|
    h.bind (h.bit true _) fun e1 => h.bind (h.putBits _ _ e1) fun e2 =>
      h.bind (h.putBits _ _ e2) fun e3 => h.putBits _ _ e3

end PackerRule

section
variable {cfg : Config} {R : Enc → Option Enc → Prop} (h : PackerRule cfg.outCap R)
include h

theorem PackerRule.emitRecord (d : Word) (e : Enc) : R e (emitRecord cfg d e) := by
  unfold Machine.emitRecord
  split
  · exact h.bit false e
  · refine h.bind (h.bit true e) fun e1 => ?_
    dsimp only
    split
    · exact h.emitReuse d e1
    · exact h.emitNew d _ _ e1

theorem PackerRule.writePath (w : Word) (bypass : Bool) (e : Enc) : R e (writePath cfg w bypass e) := by
  unfold Machine.writePath
  split
  · exact h.regs (e0 := raiseEnc .unsupportedValue e) rfl rfl rfl (h.pure _)
  split
  · exact h.regs (e0 := { e with prev := w, first := false }) rfl rfl rfl (h.putBits w 64 _)
  · exact h.map (h.emitRecord _ e) fun _ => ⟨rfl, rfl, rfl⟩

theorem PackerRule.finalize (e : Enc) : R e (finalize cfg e) :=
  h.bind (h.writePath cfg.sentinel true e) fun e1 => h.map (h.padLoop 7 e1) fun _ => ⟨rfl, rfl, rfl⟩

end

/-! ### OUT only grows -/

/-- Whatever an operation on an encoder in form answers, it has appended bits. -/
def Grows (e : Enc) (r : Option Enc) : Prop := e.Packed → ∀ e', r = some e' → ∃ bs, e.Appended e' bs

theorem grows_rule (cap : Option Nat) : PackerRule cap Grows where
  pure := fun e hp e' h => by cases h; exact ⟨[], .refl hp⟩
  bit := fun b e hp e' h => by
    rcases putBit_spec cap b hp with ⟨hnone, -⟩ | ⟨e1, hsome, -, happ, -⟩
    · rw [hnone] at h; cases h
    · rw [hsome] at h; cases h; exact ⟨[b], happ⟩
  bind := fun hr hf hp e' h => by
    obtain ⟨e1, h1, h2⟩ := Option.bind_eq_some_iff.1 h
    obtain ⟨xs, ha1⟩ := hr hp e1 h1
    obtain ⟨ys, ha2⟩ := hf e1 ha1.packed e' h2
    exact ⟨xs ++ ys, ha1.trans ha2⟩
  regs := fun hout hpend hpcnt hr hp e' h => by
    obtain ⟨bs, ha⟩ := hr (by rw [Enc.Packed, hout, hpend, hpcnt]; exact hp) e' h
    exact ⟨bs, ha.of_packer hout hpend hpcnt⟩

/-- Settles O48: the encoder's operations append, ENC_RESET apart, and no other instruction writes the encoder. -/
theorem outOnlyGrows : Obligations.OutOnlyGrows := by
  intro i s t hp hi h
  suffices hgrown : ∃ bs, s.enc.Appended t.enc bs by
    obtain ⟨bs, ha⟩ := hgrown
    exact ⟨by rw [ha.size]; exact Nat.le_add_right _ _, ha.kept⟩
  cases hport : onEncPort i
  · rw [exec_not_onEncPort_frame hport h]; exact ⟨[], .refl hp⟩
  · rcases onEncPort_cases hport with ⟨w, rfl⟩ | rfl | rfl | rfl
    · obtain ⟨e, hw, rfl⟩ := exec_encWrite_next h
      exact (grows_rule _).writePath w false s.enc hp e hw
    · rcases exec_encFlush_next h with ⟨-, rfl⟩ | ⟨-, e, hfin, rfl⟩
      · exact ⟨[], .refl hp⟩
      · exact (grows_rule _).finalize s.enc hp e hfin
    · cases h; exact ⟨[], .refl hp⟩
    · exact absurd rfl hi

/-! ### CapacityExceeded -/

/-- Without a bound on OUT no operation faults (60_exceptions.md R234). -/
theorem completes_rule : PackerRule none fun _ r => r.isSome = true where
  pure := fun _ => rfl
  bit := fun b e => by unfold putBit; dsimp only; split <;> rfl
  bind := fun {e r f} hr hf => by
    obtain ⟨e1, rfl⟩ := Option.isSome_iff_exists.1 hr
    exact hf e1
  regs := fun _ _ _ h => h

/-- Only the two commands that run the packer can fault, and only where an operation of it does. -/
theorem exec_fault {i : Instr} {s : State} {r : Fault} (h : exec i s = .fault r) :
    (∃ w, i = .encWrite w ∧ writePath s.cfg w false s.enc = none) ∨ (i = .encFlush ∧ finalize s.cfg s.enc = none) := by
  have hnone : ∀ {o : Option Enc}, encOutcome s o = .fault r → o = none := by
    intro o ho
    cases o with
    | none => rfl
    | some e => cases ho
  cases i with
  | encWrite w => exact .inl ⟨w, rfl, hnone h⟩
  | encFlush =>
    change execEncFlush s = _ at h
    unfold execEncFlush at h
    split at h
    · cases h
    · exact .inr ⟨rfl, hnone h⟩
  | decSetbytes ibuf =>
    change execDecSetbytes ibuf s = _ at h
    unfold execDecSetbytes at h
    split at h <;> cases h
  | decValue => rcases exec_decValue_cases s with ⟨-, hv⟩ | ⟨-, hv⟩ <;> rw [hv] at h <;> cases h
  | encBytes | encReset | decNext | decError | header | seed | same | reuse | newWindow => cases h

/-- Settles O52: a faulting command ran the packer, which completes where OUT is unbounded. -/
theorem faultsOnlyAtOutputCapacity : Obligations.FaultsOnlyAtOutputCapacity := by
  intro i s r h
  have hbounded : (∃ w, writePath s.cfg w false s.enc = none) ∨ finalize s.cfg s.enc = none →
      ∃ c, s.cfg.outCap = some c := by
    intro hnone
    cases hcap : s.cfg.outCap with
    | some c => exact ⟨c, rfl⟩
    | none =>
      have hrule : PackerRule s.cfg.outCap fun _ r => r.isSome = true := by rw [hcap]; exact completes_rule
      rcases hnone with ⟨w, hw⟩ | hf
      · have hsome := hrule.writePath w false s.enc
        rw [hw] at hsome; cases hsome
      · have hsome := hrule.finalize s.enc
        rw [hf] at hsome; cases hsome
  rcases exec_fault h with ⟨w, rfl, hw⟩ | ⟨rfl, hf⟩
  · exact ⟨.inl ⟨w, rfl⟩, hbounded (.inl ⟨w, hw⟩)⟩
  · exact ⟨.inr rfl, hbounded (.inr hf)⟩

end Sys2Proof.Machine
end

section
/-! PROOFS. What a step refuses, and how long the host's input is in use (60_exceptions.md section 1,
70_reset_and_hazards.md sections 3 and 5). -/

namespace Sys2Proof.Machine

/-! ### Refusals -/

/-- The port signals of DEC_SETBYTES (30_encoding.md R115). -/
theorem decodePort_eq_decSetbytes {p : PortWord} {ibuf : List Byte} :
    decodePort p = .decSetbytes ibuf ↔ p = .dec 0b00#2 ibuf := by
  constructor
  · intro h
    cases p with
    | enc ecmd wdata =>
      have henc := decodeEncPort_onEncPort ecmd wdata
      rw [show decodeEncPort ecmd wdata = .decSetbytes ibuf from h] at henc
      cases henc
    | dec dcmd buf =>
      change decodeDecPort dcmd buf = _ at h
      unfold decodeDecPort at h
      split at h
      · rename_i h0; cases h; rw [h0]
      split at h
      · cases h
      split at h <;> cases h
  · rintro rfl; rfl

/-- An encoder command that completes or faults is not refused. -/
theorem encOutcome_ne_refused {s : State} {o : Option Enc} {r : Refusal} : encOutcome s o ≠ .refused r := by
  cases o <;> nofun

/-- DEC_SETBYTES of an input that is too long is the one command that is refused (60_exceptions.md R235). -/
theorem exec_eq_refused {i : Instr} {s : State} {r : Refusal} :
    exec i s = .refused r ↔
      ∃ ibuf, i = .decSetbytes ibuf ∧ fitsCap s.cfg.inCap ibuf.length = false ∧ r = .inputTooLong := by
  constructor
  · intro h
    cases i with
    | encWrite w => exact absurd h encOutcome_ne_refused
    | encFlush =>
      change execEncFlush s = _ at h
      unfold execEncFlush at h
      split at h
      · cases h
      · exact absurd h encOutcome_ne_refused
    | decSetbytes ibuf =>
      obtain ⟨hlong, hfits⟩ := setbytesRefusedOverCapacity s ibuf
      cases hf : fitsCap s.cfg.inCap ibuf.length
      · rw [hlong hf] at h
        cases h
        exact ⟨ibuf, rfl, hf, rfl⟩
      · obtain ⟨t, ht⟩ := hfits hf
        rw [ht] at h; cases h
    | decValue =>
      rcases exec_decValue_cases s with ⟨-, hv⟩ | ⟨-, hv⟩ <;> rw [hv] at h <;> cases h
    | encBytes | encReset | decNext | decError | header | seed | same | reuse | newWindow => cases h
  · rintro ⟨ibuf, rfl, hf, rfl⟩
    exact (setbytesRefusedOverCapacity s ibuf).1 hf

theorem fitsCap_eq_false {cap : Option Nat} {n : Nat} : fitsCap cap n = false ↔ ∃ c, cap = some c ∧ c < n := by
  cases cap <;> simp [fitsCap]

/-- A command on a port is refused for its input alone. -/
theorem exec_decodePort_eq_refused {p : PortWord} {s : State} {r : Refusal} :
    exec (decodePort p) s = .refused r ↔ r = .inputTooLong ∧
      ∃ ibuf cap, p = .dec 0b00#2 ibuf ∧ s.cfg.inCap = some cap ∧ cap < ibuf.length := by
  simp only [exec_eq_refused, decodePort_eq_decSetbytes, fitsCap_eq_false]
  constructor
  · rintro ⟨ibuf, hp, ⟨cap, hcap, hlt⟩, hr⟩; exact ⟨hr, ibuf, cap, hp, hcap, hlt⟩
  · rintro ⟨hr, ibuf, cap, hp, hcap, hlt⟩; exact ⟨ibuf, hp, ⟨cap, hcap, hlt⟩, hr⟩

theorem hostChangesInput_eq_refused {s : State} {r : Refusal} :
    hostChangesInput s = .refused r ↔ r = .inputChanged ∧ s.cfg.inPlace = true ∧ s.inputInUse = true := by
  unfold hostChangesInput
  split
  · rename_i h
    rw [Bool.and_eq_true] at h
    constructor
    · intro hr; cases hr; exact ⟨rfl, h⟩
    · rintro ⟨rfl, -⟩; rfl
  · rename_i h
    refine ⟨nofun, fun ⟨_, hin, huse⟩ => absurd ?_ h⟩
    rw [hin, huse]; rfl

/-- The commands of the two units are told apart by their ports. -/
theorem unit_ne_dec {q : PortWord} : UnitId.dec ≠ q.unit ↔ q.unit = .enc := by
  cases q <;> simp [PortWord.unit]

/-- Every way a step can be refused, by the event it meets. -/
theorem step_eq_refused (s : State) (r : Refusal) : step s = .refused r ↔
    (r = .concurrentCommands ∧ ∃ p q rest, s.inbox = .together p q :: rest ∧ p.unit = q.unit) ∨
    (r = .inputTooLong ∧ ∃ ibuf cap rest,
      (s.inbox = .command (.dec 0b00#2 ibuf) :: rest ∨
        ∃ q, q.unit = .enc ∧ s.inbox = .together (.dec 0b00#2 ibuf) q :: rest) ∧
      s.cfg.inCap = some cap ∧ cap < ibuf.length) ∨
    (r = .inputChanged ∧ s.cfg.inPlace = true ∧ s.inputInUse = true ∧ ∃ rest, s.inbox = .changeInput :: rest) := by
  cases hin : s.inbox with
  | nil => rw [step_idle hin]; simp
  | cons ev rest =>
    cases ev with
    | command p =>
      rw [step_command hin, exec_decodePort_eq_refused]
      simp
    | together p q =>
      by_cases heq : p.unit = q.unit
      · rw [step_clash hin heq]
        constructor
        · intro h; cases h; exact .inl ⟨rfl, p, q, rest, rfl, heq⟩
        · rintro (⟨rfl, -⟩ | ⟨-, ibuf, cap, _, hc | ⟨q', hq, hc⟩, -⟩ | ⟨-, -, -, _, hc⟩)
          · rfl
          · cases hc
          · cases hc; rw [hq] at heq; cases heq
          · cases hc
      · rw [step_together hin heq, exec_decodePort_eq_refused]
        constructor
        · rintro ⟨rfl, ibuf, cap, rfl, hcap, hlt⟩
          exact .inr (.inl ⟨rfl, ibuf, cap, rest, .inr ⟨q, unit_ne_dec.1 heq, rfl⟩, hcap, hlt⟩)
        · rintro (⟨-, p', q', _, hc, heq'⟩ | ⟨rfl, ibuf, cap, _, hc | ⟨q', -, hc⟩, hcap, hlt⟩ | ⟨-, -, -, _, hc⟩)
          · cases hc; exact absurd heq' heq
          · cases hc
          · cases hc; exact ⟨rfl, ibuf, cap, rfl, hcap, hlt⟩
          · cases hc
    | changeInput =>
      rw [step_changeInput hin, hostChangesInput_eq_refused]
      simp

/-! ### The life of `inputInUse` -/

/-- DEC_SETBYTES puts its input in use, also where it fails (70_reset_and_hazards.md R266). -/
theorem setBytes_inputInUse (ibuf : List Byte) (s : State) : (setBytes ibuf s).inputInUse = true := by
  rcases setBytes_cases ibuf s with ⟨-, h⟩ | ⟨-, -, h⟩ | ⟨-, h⟩ <;> rw [h] <;> rfl

/-- A DEC_NEXT that returns 0 ends the use of the input and any other keeps it (70_reset_and_hazards.md R273). -/
theorem afterChecks_inputInUse (s : State) : (afterChecks s nextRecord).inputInUse =
    ((afterChecks s nextRecord).res.avail && s.inputInUse) := by
  rcases afterChecks_cases s nextRecord with ⟨-, h⟩ | ⟨-, -, -, h⟩ | ⟨-, -, -, h⟩ <;> rw [h]
  case inl => rfl
  case inr.inl => rcases seedStep_cases s with ⟨-, hs⟩ | ⟨-, hs⟩ <;> rw [hs] <;> rfl
  case inr.inr =>
    obtain ⟨pos, W, -, ⟨c, -, -, hn⟩ | ⟨-, hn⟩ | ⟨k, idx, -, -, hn⟩⟩ := nextRecord_cases s <;> rw [hn] <;> rfl

/-- Settles O53: a step is refused by the event it meets, and `inputInUse` lives from DEC_SETBYTES to the first
DEC_NEXT that returns 0. -/
theorem stepRefusesOnlyProtocolViolations : Obligations.StepRefusesOnlyProtocolViolations := by
  refine ⟨step_eq_refused, fun ibuf s t h => ?_, fun s t h => ?_, fun i s t hi h => ?_⟩
  · obtain ⟨-, rfl⟩ := exec_decSetbytes_next h
    exact setBytes_inputInUse ibuf s
  · rw [exec_decNext] at h
    cases h; exact afterChecks_inputInUse s
  · rcases hi with hi | rfl | rfl
    · rw [exec_onEncPort_frame hi h]; rfl
    · rcases exec_decValue_cases s with ⟨-, hv⟩ | ⟨-, hv⟩ <;> rw [hv] at h <;> cases h <;> rfl
    · cases h; rfl

end Sys2Proof.Machine
end
